-- ==== Sys2Proof/Word.lean ====
section
/-! DEFINITION. The word types of VARINT-CORE. -/

namespace Sys2Proof

/-- One byte of the wire buffer (20_memory.md R50). -/
abbrev Byte := BitVec 8

/-- The 64 bits of a value register or of DIN (10_state.md R22, R27). -/
abbrev Word := BitVec 64

/-- One 32-bit command word, as the ISSUE port carries it (30_encoding.md R71). -/
abbrev Command := BitVec 32

/-- A register number: the 3-bit field of a command word, every value naming a register (30_encoding.md R74). -/
abbrev Reg := BitVec 3

end Sys2Proof
end

