-- ==== Sys2Proof/Syntax.lean ====
section
/-! DEFINITION. The commands (one constructor per row of the opcode table) and the host operations. -/

namespace Sys2Proof

/-- The 37 commands of the opcode table (30_encoding.md R75). `rd` is the destination, `rs1` and `rs2` the
sources (R72). In `enc` the first register is the value source, not a destination (R73, D37). -/
inductive Instr where
  -- 40_construct.md
  | ldi (rd : Reg) (imm : BitVec 16)
  | ldmax (rd : Reg)
  | cvtdU (rd : Reg)
  | cvtdS (rd : Reg)
  | cvtdF (rd : Reg)
  | cvtcU (rd : Reg)
  | cvtcS (rd : Reg)
  | cvttU (rd : Reg)
  | cvttS (rd : Reg)
  | cvtxU (rd : Reg)
  | cvtxS (rd : Reg)
  | cvtxF (rd : Reg)
  -- 41_classify.md
  | bitw (rd rs1 : Reg)
  | ebitw (rd rs1 : Reg)
  | elen (rd rs1 : Reg)
  | ctz (rd rs1 : Reg)
  -- 42_codec.md
  | dec (rd ro ra : Reg)
  | enc (rv ro rc : Reg)
  | mflen (rd : Reg)
  | mfst (rd : Reg)
  -- 43_alu_arith.md
  | add (rd rs1 rs2 : Reg)
  | sub (rd rs1 rs2 : Reg)
  | mul (rd rs1 rs2 : Reg)
  | div (rd rs1 rs2 : Reg)
  | rem (rd rs1 rs2 : Reg)
  -- 44_alu_bitwise.md
  | and (rd rs1 rs2 : Reg)
  | or (rd rs1 rs2 : Reg)
  | xor (rd rs1 rs2 : Reg)
  | not (rd rs1 : Reg)
  | shl (rd rs1 rs2 : Reg)
  | shr (rd rs1 rs2 : Reg)
  -- 45_alu_compare.md
  | eq (rd rs1 rs2 : Reg)
  | ne (rd rs1 rs2 : Reg)
  | lt (rd rs1 rs2 : Reg)
  | le (rd rs1 rs2 : Reg)
  | gt (rd rs1 rs2 : Reg)
  | ge (rd rs1 rs2 : Reg)
  deriving DecidableEq, Repr

/-- The host's port operations (10_state.md R39). An address is the plain number of a byte of WBUF; that it
lies below WBUF_SIZE is `HostOp.WellFormed`. -/
inductive HostOp where
  | reset
  | wrDin (w : Word)
  | wrBuf (a : Nat) (b : Byte)
  | rdBuf (a : Nat)
  | rdV (i : Reg)
  | rdStatus
  | issue (c : Command)
  deriving DecidableEq, Repr

/-- What a host read returns (10_state.md R39): a byte of WBUF, a value register, or STATUS. -/
inductive Response where
  | byte (b : Byte)
  | value (w : Word)
  | status (w : BitVec 32)
  deriving DecidableEq, Repr

/-- An operand as the assembler reads it, before its range is checked (30_encoding.md R81): a register `Vn`
or a number. -/
inductive AsmOperand where
  | reg (n : Nat)
  | imm (n : Nat)
  deriving DecidableEq, Repr

end Sys2Proof
end

