-- ==== Sys2Proof/Decode.lean ====
section
/-! DEFINITION. The command encoding (30_encoding.md): the opcode table, the decoder and the encoder. -/

namespace Sys2Proof

/-! ### Fields (R72) -/

/-- `op`, bits 31:24. -/
def opField (c : Command) : BitVec 8 := c.extractLsb' 24 8

/-- `rd`, bits 23:21. -/
def rdField (c : Command) : Reg := c.extractLsb' 21 3

/-- `rs1`, bits 20:18. -/
def rs1Field (c : Command) : Reg := c.extractLsb' 18 3

/-- `rs2`, bits 17:15. -/
def rs2Field (c : Command) : Reg := c.extractLsb' 15 3

/-- `imm16`, bits 15:0. -/
def immField (c : Command) : BitVec 16 := c.extractLsb' 0 16

/-! ### The opcode table (R75) -/

/-- The formats of R73 with what each builds from its operands. Format E has the layout of R3 (R73). -/
inductive Form where
  | r3 (mk : Reg → Reg → Reg → Instr)
  | r2 (mk : Reg → Reg → Instr)
  | r1 (mk : Reg → Instr)
  | imm (mk : Reg → BitVec 16 → Instr)

/-- The instruction a form builds from a word's operand fields (R72, R74). -/
def buildForm : Form → Command → Instr
  | .r3 mk, c => mk (rdField c) (rs1Field c) (rs2Field c)
  | .r2 mk, c => mk (rdField c) (rs1Field c)
  | .r1 mk, c => mk (rdField c)
  | .imm mk, c => mk (rdField c) (immField c)

/-- One row of the opcode table: opcode, mnemonic, `match`, `mask` and format (R75). -/
structure OpcodeRow where
  op : BitVec 8
  mnemonic : String
  matchWord : Command
  mask : Command
  form : Form

/-- A word encodes the command of a row iff `c & mask = match` (R75). -/
abbrev OpcodeRow.matches (r : OpcodeRow) (c : Command) : Prop := c &&& r.mask = r.matchWord

/-- Rows of operand entry (R75, opcodes 0x01 to 0x12). -/
def constructRows : List OpcodeRow :=
  [ ⟨0x01, "LDI", 0x01000000, 0xFF1F0000, .imm .ldi⟩
  , ⟨0x02, "LDMAX", 0x02000000, 0xFF1FFFFF, .r1 .ldmax⟩
  , ⟨0x04, "CVTD.U", 0x04000000, 0xFF1FFFFF, .r1 .cvtdU⟩
  , ⟨0x05, "CVTD.S", 0x05000000, 0xFF1FFFFF, .r1 .cvtdS⟩
  , ⟨0x06, "CVTD.F", 0x06000000, 0xFF1FFFFF, .r1 .cvtdF⟩
  , ⟨0x08, "CVTC.U", 0x08000000, 0xFF1FFFFF, .r1 .cvtcU⟩
  , ⟨0x09, "CVTC.S", 0x09000000, 0xFF1FFFFF, .r1 .cvtcS⟩
  , ⟨0x0C, "CVTT.U", 0x0C000000, 0xFF1FFFFF, .r1 .cvttU⟩
  , ⟨0x0D, "CVTT.S", 0x0D000000, 0xFF1FFFFF, .r1 .cvttS⟩
  , ⟨0x10, "CVTX.U", 0x10000000, 0xFF1FFFFF, .r1 .cvtxU⟩
  , ⟨0x11, "CVTX.S", 0x11000000, 0xFF1FFFFF, .r1 .cvtxS⟩
  , ⟨0x12, "CVTX.F", 0x12000000, 0xFF1FFFFF, .r1 .cvtxF⟩ ]

/-- Rows of the classifier and the codec (R75, opcodes 0x18 to 0x23). -/
def codecRows : List OpcodeRow :=
  [ ⟨0x18, "BITW", 0x18000000, 0xFF03FFFF, .r2 .bitw⟩
  , ⟨0x19, "EBITW", 0x19000000, 0xFF03FFFF, .r2 .ebitw⟩
  , ⟨0x1A, "ELEN", 0x1A000000, 0xFF03FFFF, .r2 .elen⟩
  , ⟨0x1B, "CTZ", 0x1B000000, 0xFF03FFFF, .r2 .ctz⟩
  , ⟨0x20, "DEC", 0x20000000, 0xFF007FFF, .r3 .dec⟩
  , ⟨0x21, "ENC", 0x21000000, 0xFF007FFF, .r3 .enc⟩
  , ⟨0x22, "MFLEN", 0x22000000, 0xFF1FFFFF, .r1 .mflen⟩
  , ⟨0x23, "MFST", 0x23000000, 0xFF1FFFFF, .r1 .mfst⟩ ]

/-- Rows of the ALU (R75, opcodes 0x30 to 0x45). -/
def aluRows : List OpcodeRow :=
  [ ⟨0x30, "ADD", 0x30000000, 0xFF007FFF, .r3 .add⟩
  , ⟨0x31, "SUB", 0x31000000, 0xFF007FFF, .r3 .sub⟩
  , ⟨0x32, "MUL", 0x32000000, 0xFF007FFF, .r3 .mul⟩
  , ⟨0x33, "DIV", 0x33000000, 0xFF007FFF, .r3 .div⟩
  , ⟨0x34, "REM", 0x34000000, 0xFF007FFF, .r3 .rem⟩
  , ⟨0x38, "AND", 0x38000000, 0xFF007FFF, .r3 .and⟩
  , ⟨0x39, "OR", 0x39000000, 0xFF007FFF, .r3 .or⟩
  , ⟨0x3A, "XOR", 0x3A000000, 0xFF007FFF, .r3 .xor⟩
  , ⟨0x3B, "NOT", 0x3B000000, 0xFF03FFFF, .r2 .not⟩
  , ⟨0x3C, "SHL", 0x3C000000, 0xFF007FFF, .r3 .shl⟩
  , ⟨0x3D, "SHR", 0x3D000000, 0xFF007FFF, .r3 .shr⟩
  , ⟨0x40, "EQ", 0x40000000, 0xFF007FFF, .r3 .eq⟩
  , ⟨0x41, "NE", 0x41000000, 0xFF007FFF, .r3 .ne⟩
  , ⟨0x42, "LT", 0x42000000, 0xFF007FFF, .r3 .lt⟩
  , ⟨0x43, "LE", 0x43000000, 0xFF007FFF, .r3 .le⟩
  , ⟨0x44, "GT", 0x44000000, 0xFF007FFF, .r3 .gt⟩
  , ⟨0x45, "GE", 0x45000000, 0xFF007FFF, .r3 .ge⟩ ]

/-- The opcode table (R75). -/
def opcodeTable : List OpcodeRow := constructRows ++ codecRows ++ aluRows

/-! ### Decoding -/

/-- Why a word encodes no command: its opcode is unassigned (R79), or a must-be-zero bit of the named
command is 1 (R77). Either way the block raises ILLEGAL (R80). -/
inductive DecodeError where
  | unassignedOpcode (op : BitVec 8)
  | mustBeZero (mnemonic : String)
  deriving DecidableEq, Repr

/-- The command a word encodes (R70, R72 to R79). -/
def decode (c : Command) : Except DecodeError Instr :=
  match opcodeTable.find? (fun r => r.op == opField c) with
  | none => .error (.unassignedOpcode (opField c))
  | some r => if r.matches c then .ok (buildForm r.form c) else .error (.mustBeZero r.mnemonic)

/-- `Legal(c)`: the word encodes some command (R78). -/
def legal (c : Command) : Bool :=
  match decode c with
  | .ok _ => true
  | .error _ => false

/-- The instruction read from a word of `nbits` bits, the bits above them 0. A command is one 32-bit word
that arrives whole on the port, so no byte order applies (R71). -/
def decodeTableWord (nbits w : Nat) : Option Instr :=
  match decode (BitVec.ofNat 32 (w % 2 ^ nbits)) with
  | .ok i => some i
  | .error _ => none

/-! ### Encoding (the layouts of R73) -/

/-- Formats R3 and E: `oooooooo ddd sss ttt 000000000000000`. -/
def encodeR3 (op : BitVec 8) (rd rs1 rs2 : Reg) : Command := op ++ rd ++ rs1 ++ rs2 ++ 0#15

/-- Format R2: `oooooooo ddd sss 000 000000000000000`. -/
def encodeR2 (op : BitVec 8) (rd rs1 : Reg) : Command := op ++ rd ++ rs1 ++ 0#18

/-- Format R1: `oooooooo ddd 000 000 000000000000000`. -/
def encodeR1 (op : BitVec 8) (rd : Reg) : Command := op ++ rd ++ 0#21

/-- Format I: `oooooooo ddd 00000 iiiiiiiiiiiiiiii`. -/
def encodeI (op : BitVec 8) (rd : Reg) (imm : BitVec 16) : Command := op ++ rd ++ 0#5 ++ imm

/-- The word of a command (R73, R75). -/
def encode : Instr → Command
  | .ldi rd imm => encodeI 0x01 rd imm
  | .ldmax rd => encodeR1 0x02 rd
  | .cvtdU rd => encodeR1 0x04 rd
  | .cvtdS rd => encodeR1 0x05 rd
  | .cvtdF rd => encodeR1 0x06 rd
  | .cvtcU rd => encodeR1 0x08 rd
  | .cvtcS rd => encodeR1 0x09 rd
  | .cvttU rd => encodeR1 0x0C rd
  | .cvttS rd => encodeR1 0x0D rd
  | .cvtxU rd => encodeR1 0x10 rd
  | .cvtxS rd => encodeR1 0x11 rd
  | .cvtxF rd => encodeR1 0x12 rd
  | .bitw rd rs1 => encodeR2 0x18 rd rs1
  | .ebitw rd rs1 => encodeR2 0x19 rd rs1
  | .elen rd rs1 => encodeR2 0x1A rd rs1
  | .ctz rd rs1 => encodeR2 0x1B rd rs1
  | .dec rd ro ra => encodeR3 0x20 rd ro ra
  | .enc rv ro rc => encodeR3 0x21 rv ro rc
  | .mflen rd => encodeR1 0x22 rd
  | .mfst rd => encodeR1 0x23 rd
  | .add rd rs1 rs2 => encodeR3 0x30 rd rs1 rs2
  | .sub rd rs1 rs2 => encodeR3 0x31 rd rs1 rs2
  | .mul rd rs1 rs2 => encodeR3 0x32 rd rs1 rs2
  | .div rd rs1 rs2 => encodeR3 0x33 rd rs1 rs2
  | .rem rd rs1 rs2 => encodeR3 0x34 rd rs1 rs2
  | .and rd rs1 rs2 => encodeR3 0x38 rd rs1 rs2
  | .or rd rs1 rs2 => encodeR3 0x39 rd rs1 rs2
  | .xor rd rs1 rs2 => encodeR3 0x3A rd rs1 rs2
  | .not rd rs1 => encodeR2 0x3B rd rs1
  | .shl rd rs1 rs2 => encodeR3 0x3C rd rs1 rs2
  | .shr rd rs1 rs2 => encodeR3 0x3D rd rs1 rs2
  | .eq rd rs1 rs2 => encodeR3 0x40 rd rs1 rs2
  | .ne rd rs1 rs2 => encodeR3 0x41 rd rs1 rs2
  | .lt rd rs1 rs2 => encodeR3 0x42 rd rs1 rs2
  | .le rd rs1 rs2 => encodeR3 0x43 rd rs1 rs2
  | .gt rd rs1 rs2 => encodeR3 0x44 rd rs1 rs2
  | .ge rd rs1 rs2 => encodeR3 0x45 rd rs1 rs2

end Sys2Proof
end

