-- ==== Sys2Proof/Config.lean ====
section
/-! DEFINITION. What an implementation fixes (the parameters of 00_scope.md R6) and the free values. -/

namespace Sys2Proof.Config

/-- `NOT_WIDTH`: the width over which `NOT` complements (00_scope.md R6; 44_alu_bitwise.md R174). -/
inductive NotWidth where
  | w64
  | w62
  deriving DecidableEq, Repr

/-- `CTZ_ZERO`: the result of `CTZ` on the value 0, 64 or 6 (00_scope.md R6; 41_classify.md R134). -/
inductive CtzZero where
  | z64
  | z6
  deriving DecidableEq, Repr

/-- The parameters of 00_scope.md R6, every value of this type legal: the wire buffer's size is given by
`wbufLog`, so that it is a power of two and at least 8 by construction (assumption 6). -/
structure Params where
  wbufLog : Nat
  notWidth : NotWidth
  ctzZero : CtzZero
  deriving DecidableEq, Repr

/-- `WBUF_SIZE`, a power of two and at least 8 (00_scope.md R6). -/
def Params.wbufSize (p : Params) : Nat := 8 * 2 ^ p.wbufLog

/-- The defaults, which this hardware takes: `WBUF_SIZE = 64`, `NOT_WIDTH = 64`, `CTZ_ZERO = 64`
(00_scope.md R6). -/
def defaults : Params := { wbufLog := 3, notWidth := .w64, ctzZero := .z64 }

/-- FREE VALUE (assumption 4). The byte that the n-th read of an unwritten WBUF byte draws: "an independent
draw of any byte value" (20_memory.md R56). It has no body, so nothing can be proved of any draw. -/
opaque freeByte : Nat → Byte

end Sys2Proof.Config
end

