-- ==== Sys2Proof/Machine/State.lean ====
section
/-! DEFINITION. The state of the block, the reasons a step can stop, and the state after reset. -/

namespace Sys2Proof.Machine

/-- `STATUS.ERR`: the recoverable error codes 0 to 4 (10_state.md R29). Codes 5 to 15 are reserved and never
raised (93 U10), so they have no constructor. -/
inductive ErrCode where
  | ok
  | empty
  | bufferTooSmall
  /-- Reserved: never raised (42_codec.md R144). -/
  | parseError
  | notExact
  deriving DecidableEq, Repr

/-- `STATUS.FCAUSE`: the causes of a fatal fault, codes 0 to 6 (10_state.md R33). Codes 7 to 15 are reserved
and never written (93 U10), so they have no constructor. -/
inductive Cause where
  | none
  | divZero
  | range
  | overflow
  | illegal
  | region
  | fpInvalid
  deriving DecidableEq, Repr

/-- The fields of the 32-bit STATUS register (10_state.md R28). Its reserved bits always read 0, so they are
not stored; `Status.word` (Flags.lean) is the register as the host and `MFST` read it (assumption 9). -/
structure Status where
  err : ErrCode
  len : BitVec 4
  req : BitVec 4
  fault : Bool
  fcause : Cause
  deriving DecidableEq, Repr

/-- The bytes of WBUF written since reset, each with its address, addresses strictly rising. A byte not listed
has not been written: reading it draws a free byte (20_memory.md R56, assumption 4). -/
abbrev Memory := List Host.Cell

/-- Everything the spec gives the block (INVENTORY.md, "State"), with the parameters of the machine (`cfg`,
written by no step) and three fields of the model's own: the host operations to come (`pending`), the last
read's value (`resp`) and the count of free bytes drawn (`draws`). -/
structure State where
  /-- `V0` to `V7` (10_state.md R22). -/
  regs : Vector Word 8
  /-- `DIN` (10_state.md R27). -/
  din : Word
  /-- `STATUS` (10_state.md R28). -/
  status : Status
  /-- `WBUF` (10_state.md R35). -/
  wbuf : Memory
  /-- The parameters of 00_scope.md R6 (assumption 6). -/
  cfg : Config.Params
  /-- The host operations still to be performed, the next one first (10_state.md R20; assumption 1). -/
  pending : List HostOp
  /-- What the last host operation returned, if it was a read (10_state.md R39; assumption 2). -/
  resp : Option Response
  /-- How many free bytes reads of unwritten WBUF bytes have drawn (assumption 4). -/
  draws : Nat
  deriving DecidableEq, Repr

/-- Why a step stops with a fault. A fatal fault OF THE BLOCK is not among these: it is a next state with
STATUS.FAULT set (60_exceptions.md R202, assumption 14). -/
inductive Fault where
  /-- Raised by the host operations WR_BUF and RD_BUF whose address is not below WBUF_SIZE: no such
  operation exists (10_state.md R39, assumption 8). Safe: the model stops where the hardware has no behaviour. -/
  | wbufAddress (a : Nat)
  deriving DecidableEq, Repr

/-- Why a step is refused. -/
inductive Refusal where
  /-- Raised by an arm of `exec` whose instruction has no meaning yet. Safe: nothing is claimed of it. In
  this model every instruction has its meaning, so no arm raises it. -/
  | notModelled (mnemonic : String)
  deriving DecidableEq, Repr

/-- The state after `RESET` (70_reset_and_hazards.md R230): every register 0, STATUS 0, no byte of WBUF
written. The parameters are this hardware's defaults (00_scope.md R6). No operation is pending, none has
returned a value and no byte has been drawn (DESIGN CHOICE: assumptions 1, 2 and 4). -/
def State.reset : State where
  regs := Vector.replicate 8 0
  din := 0
  status := { err := .ok, len := 0, req := 0, fault := false, fcause := .none }
  wbuf := []
  cfg := Config.defaults
  pending := []
  resp := none
  draws := 0

end Sys2Proof.Machine
end

