-- ==== Sys2Proof/Machine/Flags.lean ====
section
/-! DEFINITION. The STATUS register: its codes, its 32-bit word and the writes to its fields (10_state.md §5). -/

namespace Sys2Proof.Machine

/-- The code of `STATUS.ERR` (10_state.md R29). -/
def ErrCode.code : ErrCode → BitVec 4
  | .ok => 0
  | .empty => 1
  | .bufferTooSmall => 2
  | .parseError => 3
  | .notExact => 4

/-- The code of `STATUS.FCAUSE` (10_state.md R33). -/
def Cause.code : Cause → BitVec 4
  | .none => 0
  | .divZero => 1
  | .range => 2
  | .overflow => 3
  | .illegal => 4
  | .region => 5
  | .fpInvalid => 6

/-- STATUS as one 32-bit word: ERR 3:0, LEN 7:4, REQ 11:8, FAULT 12, FCAUSE 19:16, the rest 0
(10_state.md R28). -/
def Status.word (t : Status) : BitVec 32 :=
  0#12 ++ t.fcause.code ++ 0#3 ++ BitVec.ofBool t.fault ++ t.req ++ t.len ++ t.err.code

/-- `fault_o`, the output equal to STATUS.FAULT at all times (10_state.md R32; 60_exceptions.md R209). -/
def State.faultO (s : State) : Bool := s.status.fault

/-- `STATUS.ERR <- e`: all that a command other than `DEC`, `ENC`, `MFLEN` and `MFST` writes of STATUS
(10_state.md R34). -/
def State.setErr (s : State) (e : ErrCode) : State :=
  { s with status := { s.status with err := e } }

/-- `STATUS.ERR <- e; STATUS.LEN <- l; STATUS.REQ <- r`: what `DEC` and `ENC` write (10_state.md R34). -/
def State.setCodec (s : State) (e : ErrCode) (l r : Nat) : State :=
  { s with status := { s.status with err := e, len := BitVec.ofNat 4 l, req := BitVec.ofNat 4 r } }

end Sys2Proof.Machine
end

