-- ==== Sys2Proof/Machine/Operands.lean ====
section
/-! DEFINITION. Values and views: the constants, the views of DIN, the classification of a value, and the wire
format's functions (00_scope.md, 40_construct.md §1, 41_classify.md §1, 42_codec.md §1 to §3). -/

namespace Sys2Proof.Machine

/-! ### Constants (00_scope.md R7) -/

/-- `MIN = 0`. -/
def minValue : Nat := 0

/-- `MAX = 2^62 - 1`. -/
def maxValue : Nat := 4611686018427387903

/-! ### Operand fields and the views of DIN -/

/-- The immediate of format I, zero-extended (30_encoding.md R74). -/
def immValue (imm : BitVec 16) : Nat := imm.toNat

/-- `u64(DIN)` (40_construct.md R100). -/
def u64 (w : Word) : Nat := w.toNat

/-- `s64(DIN)`: two's complement, `DIN - 2^64` if bit 63 is 1 (40_construct.md R100). -/
def s64 (w : Word) : Int := if w.toNat < 2 ^ 63 then (w.toNat : Int) else (w.toNat : Int) - 2 ^ 64

/-- The classes of a binary64 word (40_construct.md R101). `finite neg m e` is the exact value
`(-1)^neg * m * 2^e` (assumption 15). -/
inductive F64 where
  | nan
  | inf (neg : Bool)
  | finite (neg : Bool) (m : Nat) (e : Int)
  deriving DecidableEq, Repr

/-- Bit 63 of a word: the sign `s` of 40_construct.md R101. -/
def signBit (w : Word) : Bool := decide (2 ^ 63 ≤ w.toNat)

/-- Bits 62:52: the biased exponent `E` of 40_construct.md R101. -/
def expField (w : Word) : Nat := (w.extractLsb' 52 11).toNat

/-- Bits 51:0: the fraction `F` of 40_construct.md R101. -/
def fracField (w : Word) : Nat := (w.extractLsb' 0 52).toNat

/-- `f64class(DIN)` (40_construct.md R101). -/
def f64class (w : Word) : F64 :=
  if expField w = 0x7FF then
    if fracField w = 0 then .inf (signBit w) else .nan
  else if expField w = 0 then .finite (signBit w) (fracField w) (-1074)
  else .finite (signBit w) (2 ^ 52 + fracField w) ((expField w : Int) - 1075)

/-- `|trunc(x)|` for `|x| = m * 2^e`: rounding toward zero drops the fraction of the magnitude
(40_construct.md R101). -/
def truncMag (m : Nat) (e : Int) : Nat :=
  if 0 ≤ e then m * 2 ^ e.toNat else m / 2 ^ (-e).toNat

/-- `x = trunc(x)` for `|x| = m * 2^e`: the value has no fractional part (40_construct.md R113). -/
def isIntegral (m : Nat) (e : Int) : Bool :=
  if 0 ≤ e then true else m % 2 ^ (-e).toNat == 0

/-! ### Classification (41_classify.md R130) -/

/-- `bw(v)`: the tests run in this order and the first that holds gives the class. A value above MAX has no
class ("a programming-contract violation") and no register holds one (R23); there this function answers 62
(assumption 11). -/
def bw (v : Nat) : Nat :=
  if v ≤ 63 then 6 else if v ≤ 16383 then 14 else if v ≤ 1073741823 then 30 else 62

/-- `ebw(v) = bw(v) + 2`. -/
def ebw (v : Nat) : Nat := bw v + 2

/-- `elen(v) = ebw(v) / 8`. -/
def elen (v : Nat) : Nat := ebw v / 8

/-- `pfx(L)`: 0, 1, 2, 3 for 1, 2, 4, 8. -/
def pfx (l : Nat) : Nat := if l = 1 then 0 else if l = 2 then 1 else if l = 4 then 2 else 3

/-- The number of trailing zeros of `a`, looking at `fuel` bits. -/
def trailingZeros : Nat → Nat → Nat
  | 0, _ => 0
  | fuel + 1, a => if a % 2 = 1 then 0 else trailingZeros fuel (a / 2) + 1

/-- The value of the parameter `CTZ_ZERO` (00_scope.md R6). -/
def ctzZeroValue : Config.CtzZero → Nat
  | .z64 => 64
  | .z6 => 6

/-- The trailing zero count of `a` (41_classify.md R134). -/
def ctzValue (z : Config.CtzZero) (a : Nat) : Nat :=
  if a = 0 then ctzZeroValue z else trailingZeros 64 a

/-- The complement of 44_alu_bitwise.md R174, at the width `NOT_WIDTH`. -/
def notValue (w : Config.NotWidth) (a : Nat) : Nat :=
  match w with
  | .w64 => 2 ^ 64 - 1 - a
  | .w62 => maxValue - a

/-- `SHL`: 0 for an amount of 64 or more, else a 64-bit shift (44_alu_bitwise.md R175). -/
def shlValue (a n : Nat) : Nat := if 64 ≤ n then 0 else a * 2 ^ n % 2 ^ 64

/-- `SHR`: 0 for an amount of 64 or more, else a zero-filling shift (44_alu_bitwise.md R176). -/
def shrValue (a n : Nat) : Nat := if 64 ≤ n then 0 else a / 2 ^ n

/-- A relation's truth value as a VarInt (45_alu_compare.md R180). -/
def truthValue (p : Bool) : Nat := if p then 1 else 0

/-! ### The wire format -/

/-- `be(bytes)`: the big-endian value of a byte list (00_scope.md R10). -/
def be (bs : List Byte) : Nat := bs.foldl (fun acc b => acc * 256 + b.toNat) 0

/-- `WireLen(b0) = 2^(b0[7:6])` (42_codec.md R141). -/
def wireLen (b0 : Byte) : Nat := 2 ^ (b0.extractLsb' 6 2).toNat

/-- `WireValue(bs, L) = be(bs[0..L-1]) mod 2^(8L - 2)` (42_codec.md R141). -/
def wireValue (bs : List Byte) (l : Nat) : Nat := be (bs.take l) % 2 ^ (8 * l - 2)

/-- Byte `i` of the `L`-byte big-endian integer `w`: `(w >> 8*(L-1-i)) mod 256` (42_codec.md R145). -/
def wireByte (w l i : Nat) : Byte := BitVec.ofNat 8 (w / 2 ^ (8 * (l - 1 - i)))

/-- `WireEncode(v)` (42_codec.md R145). -/
def wireEncode (v : Nat) : List Byte :=
  (List.range (elen v)).map (wireByte (pfx (elen v) * 2 ^ (8 * elen v - 2) + v) (elen v))

end Sys2Proof.Machine
end

