-- ==== Sys2Proof/Machine/Ops.lean ====
section
/-! DEFINITION. The named operations: registers, WBUF, `Commit`, `RegionCheck`, `report`, `raise Fault` and the
reset that leaves the faulted state. -/

namespace Sys2Proof.Machine

/-- What a step answers. -/
abbrev Out := Host.Outcome State Fault Refusal

/-! ### Fatal faults and reset -/

/-- `raise Fault(cause)`: sets FAULT and FCAUSE and changes nothing else. It saves no state, switches no mode
and transfers control nowhere (60_exceptions.md R202, R210). -/
def raiseFault (c : Cause) (s : State) : Out :=
  .next { s with status := { s.status with fault := true, fcause := c } }

/-- `RESET`: the only way out of the faulted state (60_exceptions.md R211; 70_reset_and_hazards.md R230).
The parameters are the machine's, the operations still to come are the host's, and a byte drawn after this reset
is a new draw (assumption 5). -/
def applyReset (s : State) : State :=
  { State.reset with cfg := s.cfg, pending := s.pending, draws := s.draws }

/-! ### Registers -/

/-- `V[r]` as its 64 bits (00_scope.md R10). -/
def State.reg (s : State) (r : Reg) : Word := s.regs[r.toNat]'r.isLt

/-- `V[r]` as a number (00_scope.md R8, R10). -/
def State.val (s : State) (r : Reg) : Nat := (s.reg r).toNat

/-- `V[r] <- w`. Only `commitThen` uses it. -/
def State.setReg (s : State) (r : Reg) (w : Word) : State :=
  { s with regs := s.regs.set r.toNat w r.isLt }

/-- `Commit(rd, v)` and then what the calling rule writes: a value above MAX raises RANGE and leaves the
register unchanged (10_state.md R24). -/
def commitThen (rd : Reg) (v : Nat) (s : State) (after : State → State) : Out :=
  if maxValue < v then raiseFault .range s
  else .next (after (s.setReg rd (BitVec.ofNat 64 v)))

/-- `Commit(rd, v); STATUS.ERR <- OK`: the ending of every command outside the codec. -/
def commitOk (rd : Reg) (v : Nat) (s : State) : Out :=
  commitThen rd v s (fun t => t.setErr .ok)

/-- `report(err)` of a command that writes only ERR (60_exceptions.md R201). -/
def report (e : ErrCode) (s : State) : Out := .next (s.setErr e)

/-- `report(err)` of `DEC` and `ENC`, which write LEN and REQ too (60_exceptions.md R201, R204). -/
def reportCodec (e : ErrCode) (l r : Nat) (s : State) : Out := .next (s.setCodec e l r)

/-! ### WBUF -/

/-- The byte last written at an address, none if nothing has written it since reset. -/
def readCell : Memory → Nat → Option Byte
  | [], _ => none
  | (k, b) :: m, a => if k = a then some b else readCell m a

/-- Writes a byte, keeping the addresses strictly rising. Unwritten bytes read as no value, so a written byte
is always listed. -/
def writeCell : Memory → Nat → Byte → Memory
  | [], a, b => [(a, b)]
  | (k, c) :: m, a, b =>
    if a < k then (a, b) :: (k, c) :: m
    else if a = k then (a, b) :: m
    else (k, c) :: writeCell m a b

/-- The canonical form of WBUF: addresses strictly rise and lie below WBUF_SIZE. -/
abbrev Memory.wf (size : Nat) (m : Memory) : Prop :=
  m.Pairwise (fun x y => x.1 < y.1) ∧ ∀ c ∈ m, c.1 < size

/-- What WBUF holds at an address, none while unwritten: reading it so draws nothing. -/
def State.byteAt (s : State) (a : Nat) : Option Byte := readCell s.wbuf a

/-- What an unwritten byte reads as: the next free byte (20_memory.md R56, assumption 4). -/
def unwrittenByte (draws : Nat) : Byte := Config.freeByte draws

/-- One read of WBUF (20_memory.md R56): a written byte reads as the last value written, and changes nothing;
an unwritten one is an independent draw, counted so that no two reads share it. -/
def State.readByte (s : State) (a : Nat) : Byte × State :=
  match s.byteAt a with
  | some b => (b, s)
  | none => (unwrittenByte s.draws, { s with draws := s.draws + 1 })

/-- `MemRead(a, n)`: n bytes, the one at the lowest address first (00_scope.md R10; 20_memory.md R52). -/
def State.readBytes (s : State) (a : Nat) : Nat → List Byte × State
  | 0 => ([], s)
  | n + 1 =>
    ((s.readByte a).1 :: ((s.readByte a).2.readBytes (a + 1) n).1,
      ((s.readByte a).2.readBytes (a + 1) n).2)

/-- `WBUF[a] <- b`. -/
def State.writeByte (s : State) (a : Nat) (b : Byte) : State :=
  { s with wbuf := writeCell s.wbuf a b }

/-- `MemWrite(a, n, bytes)`: byte i at address `a + i` (00_scope.md R10; 20_memory.md R52). -/
def State.writeBytes (s : State) (a : Nat) : List Byte → State
  | [] => s
  | b :: bs => (s.writeByte a b).writeBytes (a + 1) bs

/-- `RegionCheck(off, len)`: the exact sum above WBUF_SIZE raises REGION, before any byte is touched
(20_memory.md R53). -/
def regionCheck (off len : Nat) (s : State) (k : Out) : Out :=
  if s.cfg.wbufSize < off + len then raiseFault .region s else k

end Sys2Proof.Machine
end

