-- ==== Sys2Proof/Machine/Arith.lean ====
section
/-! DEFINITION. ALU arithmetic (43_alu_arith.md): exact results, the command's own check before `Commit`'s
(R160). -/

namespace Sys2Proof.Machine

/-- `ADD` (43_alu_arith.md R161). -/
def execAdd (rd rs1 rs2 : Reg) (s : State) : Out := commitOk rd (s.val rs1 + s.val rs2) s

/-- `SUB` (43_alu_arith.md R162). -/
def execSub (rd rs1 rs2 : Reg) (s : State) : Out :=
  if s.val rs1 < s.val rs2 then raiseFault .overflow s else commitOk rd (s.val rs1 - s.val rs2) s

/-- `MUL` (43_alu_arith.md R163). -/
def execMul (rd rs1 rs2 : Reg) (s : State) : Out :=
  if 2 ^ 64 ≤ s.val rs1 * s.val rs2 then raiseFault .overflow s
  else commitOk rd (s.val rs1 * s.val rs2) s

/-- `DIV` (43_alu_arith.md R164). -/
def execDiv (rd rs1 rs2 : Reg) (s : State) : Out :=
  if s.val rs2 = 0 then raiseFault .divZero s else commitOk rd (s.val rs1 / s.val rs2) s

/-- `REM` (43_alu_arith.md R165). -/
def execRem (rd rs1 rs2 : Reg) (s : State) : Out :=
  if s.val rs2 = 0 then raiseFault .divZero s else commitOk rd (s.val rs1 % s.val rs2) s

end Sys2Proof.Machine
end

