-- ==== Sys2Proof/Machine/Bitwise.lean ====
section
/-! DEFINITION. ALU bitwise and shift commands (44_alu_bitwise.md): a result on the 64-bit representation,
range-checked by `Commit` (R170). -/

namespace Sys2Proof.Machine

/-- `AND` (44_alu_bitwise.md R171). -/
def execAnd (rd rs1 rs2 : Reg) (s : State) : Out := commitOk rd (s.reg rs1 &&& s.reg rs2).toNat s

/-- `OR` (44_alu_bitwise.md R172). -/
def execOr (rd rs1 rs2 : Reg) (s : State) : Out := commitOk rd (s.reg rs1 ||| s.reg rs2).toNat s

/-- `XOR` (44_alu_bitwise.md R173). -/
def execXor (rd rs1 rs2 : Reg) (s : State) : Out := commitOk rd (s.reg rs1 ^^^ s.reg rs2).toNat s

/-- `NOT` (44_alu_bitwise.md R174). -/
def execNot (rd rs1 : Reg) (s : State) : Out := commitOk rd (notValue s.cfg.notWidth (s.val rs1)) s

/-- `SHL` (44_alu_bitwise.md R175). -/
def execShl (rd rs1 rs2 : Reg) (s : State) : Out := commitOk rd (shlValue (s.val rs1) (s.val rs2)) s

/-- `SHR` (44_alu_bitwise.md R176). -/
def execShr (rd rs1 rs2 : Reg) (s : State) : Out := commitOk rd (shrValue (s.val rs1) (s.val rs2)) s

end Sys2Proof.Machine
end

