-- ==== Sys2Proof/Machine/Classify.lean ====
section
/-! DEFINITION. The classifier commands (41_classify.md). -/

namespace Sys2Proof.Machine

/-- `BITW` (41_classify.md R131). -/
def execBitw (rd rs1 : Reg) (s : State) : Out := commitOk rd (bw (s.val rs1)) s

/-- `EBITW` (41_classify.md R132). -/
def execEbitw (rd rs1 : Reg) (s : State) : Out := commitOk rd (ebw (s.val rs1)) s

/-- `ELEN` (41_classify.md R133). -/
def execElen (rd rs1 : Reg) (s : State) : Out := commitOk rd (elen (s.val rs1)) s

/-- `CTZ` (41_classify.md R134). -/
def execCtz (rd rs1 : Reg) (s : State) : Out := commitOk rd (ctzValue s.cfg.ctzZero (s.val rs1)) s

end Sys2Proof.Machine
end

