-- ==== Sys2Proof/Machine/Codec.lean ====
section
/-! DEFINITION. The wire decoder and encoder, and the moves from STATUS (42_codec.md). -/

namespace Sys2Proof.Machine

/-- The value DEC assembles from its first byte and the `L - 1` bytes after it (42_codec.md R142 step 4; the
first byte is read once, 20_memory.md R57, assumption 12). -/
def decTail (rd : Reg) (off : Nat) (b0 : Byte) (s : State) : Out :=
  commitThen rd
    (wireValue (b0 :: (s.readBytes (off + 1) (wireLen b0 - 1)).1) (wireLen b0))
    (s.readBytes (off + 1) (wireLen b0 - 1)).2
    (fun t => t.setCodec .ok (wireLen b0) 0)

/-- DEC once its first byte is read (42_codec.md R142 steps 2 to 5). -/
def decFrom (rd : Reg) (off avail : Nat) (b0 : Byte) (s : State) : Out :=
  if avail < wireLen b0 then reportCodec .bufferTooSmall 0 (wireLen b0) s
  else decTail rd off b0 s

/-- `DEC` (42_codec.md R142). -/
def execDec (rd ro ra : Reg) (s : State) : Out :=
  regionCheck (s.val ro) (s.val ra) s
    (if s.val ra = 0 then reportCodec .empty 0 0 s
     else decFrom rd (s.val ro) (s.val ra) (s.readByte (s.val ro)).1 (s.readByte (s.val ro)).2)

/-- `ENC` (42_codec.md R146): writes exactly `L` bytes, or none. -/
def execEnc (rv ro rc : Reg) (s : State) : Out :=
  regionCheck (s.val ro) (s.val rc) s
    (if s.val rc < elen (s.val rv) then reportCodec .bufferTooSmall 0 (elen (s.val rv)) s
     else .next ((s.writeBytes (s.val ro) (wireEncode (s.val rv))).setCodec .ok (elen (s.val rv)) 0))

/-- `MFLEN` (42_codec.md R149): writes no field of STATUS. -/
def execMflen (rd : Reg) (s : State) : Out := commitThen rd s.status.len.toNat s id

/-- `MFST` (42_codec.md R150): writes no field of STATUS. -/
def execMfst (rd : Reg) (s : State) : Out := commitThen rd s.status.word.toNat s id

end Sys2Proof.Machine
end

