-- ==== Sys2Proof/Machine/Compare.lean ====
section
/-! DEFINITION. ALU comparisons (45_alu_compare.md): values compared as unsigned integers, the truth value
committed (R180). -/

namespace Sys2Proof.Machine

/-- `EQ` (45_alu_compare.md R181). -/
def execEq (rd rs1 rs2 : Reg) (s : State) : Out := commitOk rd (truthValue (s.val rs1 == s.val rs2)) s

/-- `NE` (45_alu_compare.md R182). -/
def execNe (rd rs1 rs2 : Reg) (s : State) : Out := commitOk rd (truthValue (s.val rs1 != s.val rs2)) s

/-- `LT` (45_alu_compare.md R183). -/
def execLt (rd rs1 rs2 : Reg) (s : State) : Out :=
  commitOk rd (truthValue (decide (s.val rs1 < s.val rs2))) s

/-- `LE` (45_alu_compare.md R184). -/
def execLe (rd rs1 rs2 : Reg) (s : State) : Out :=
  commitOk rd (truthValue (decide (s.val rs1 ≤ s.val rs2))) s

/-- `GT` (45_alu_compare.md R185). -/
def execGt (rd rs1 rs2 : Reg) (s : State) : Out :=
  commitOk rd (truthValue (decide (s.val rs2 < s.val rs1))) s

/-- `GE` (45_alu_compare.md R186). -/
def execGe (rd rs1 rs2 : Reg) (s : State) : Out :=
  commitOk rd (truthValue (decide (s.val rs2 ≤ s.val rs1))) s

end Sys2Proof.Machine
end

