-- ==== Sys2Proof/Machine/Construct.lean ====
section
/-! DEFINITION. Operand entry and the construction policies (40_construct.md). -/

namespace Sys2Proof.Machine

/-- `LDI` (40_construct.md R102). -/
def execLdi (rd : Reg) (imm : BitVec 16) (s : State) : Out := commitOk rd (immValue imm) s

/-- `LDMAX` (40_construct.md R103). -/
def execLdmax (rd : Reg) (s : State) : Out := commitOk rd maxValue s

/-- `CVTD.U` (40_construct.md R104). -/
def execCvtdU (rd : Reg) (s : State) : Out := commitOk rd (u64 s.din) s

/-- `CVTD.S` (40_construct.md R105): a negative source raises RANGE. -/
def execCvtdS (rd : Reg) (s : State) : Out :=
  if s64 s.din < 0 then raiseFault .range s else commitOk rd (s64 s.din).toNat s

/-- `CVTD.F` (40_construct.md R106): truncates toward zero. `trunc(x) < 0` iff x is negative and its truncated
magnitude is not 0. -/
def execCvtdF (rd : Reg) (s : State) : Out :=
  match f64class s.din with
  | .nan => raiseFault .fpInvalid s
  | .inf _ => raiseFault .fpInvalid s
  | .finite neg m e =>
    if (neg = true ∧ 0 < truncMag m e) ∨ 2 ^ 64 ≤ truncMag m e then raiseFault .fpInvalid s
    else commitOk rd (truncMag m e) s

/-- `CVTC.U` (40_construct.md R107). -/
def execCvtcU (rd : Reg) (s : State) : Out :=
  commitOk rd (if maxValue < u64 s.din then maxValue else u64 s.din) s

/-- `CVTC.S` (40_construct.md R108). -/
def execCvtcS (rd : Reg) (s : State) : Out :=
  commitOk rd
    (if s64 s.din < 0 then minValue
     else if (maxValue : Int) < s64 s.din then maxValue else (s64 s.din).toNat) s

/-- `CVTT.U` (40_construct.md R109). -/
def execCvttU (rd : Reg) (s : State) : Out :=
  commitOk rd (if maxValue < u64 s.din then u64 s.din % 2 ^ 62 else u64 s.din) s

/-- `CVTT.S` (40_construct.md R110): the mathematical remainder of the signed source. -/
def execCvttS (rd : Reg) (s : State) : Out := commitOk rd (s64 s.din % 2 ^ 62).toNat s

/-- `CVTX.U` (40_construct.md R111). -/
def execCvtxU (rd : Reg) (s : State) : Out := commitOk rd (u64 s.din) s

/-- `CVTX.S` (40_construct.md R112): a negative source reports NOT_EXACT. -/
def execCvtxS (rd : Reg) (s : State) : Out :=
  if s64 s.din < 0 then report .notExact s else commitOk rd (s64 s.din).toNat s

/-- `CVTX.F` (40_construct.md R113). `x < 0` iff the sign is set and the magnitude is not 0; for an integral x,
`x ≥ 2^64` iff its truncated magnitude is. -/
def execCvtxF (rd : Reg) (s : State) : Out :=
  match f64class s.din with
  | .nan => report .notExact s
  | .inf _ => report .notExact s
  | .finite neg m e =>
    if isIntegral m e = false ∨ (neg = true ∧ 0 < m) ∨ 2 ^ 64 ≤ truncMag m e then
      report .notExact s
    else commitOk rd (truncMag m e) s

end Sys2Proof.Machine
end

