-- ==== Sys2Proof/Machine/Dispatch.lean ====
section
/-! DEFINITION. The one dispatch from instructions to their meanings. -/

namespace Sys2Proof.Machine

/-- What a command does once the ISSUE port has found the block not faulted and the word legal
(30_encoding.md R70, its last line; assumption 10). -/
def exec (i : Instr) (s : State) : Host.Outcome State Fault Refusal :=
  match i with
  | .ldi rd imm => Sys2Proof.Machine.execLdi rd imm s
  | .ldmax rd => Sys2Proof.Machine.execLdmax rd s
  | .cvtdU rd => Sys2Proof.Machine.execCvtdU rd s
  | .cvtdS rd => Sys2Proof.Machine.execCvtdS rd s
  | .cvtdF rd => Sys2Proof.Machine.execCvtdF rd s
  | .cvtcU rd => Sys2Proof.Machine.execCvtcU rd s
  | .cvtcS rd => Sys2Proof.Machine.execCvtcS rd s
  | .cvttU rd => Sys2Proof.Machine.execCvttU rd s
  | .cvttS rd => Sys2Proof.Machine.execCvttS rd s
  | .cvtxU rd => Sys2Proof.Machine.execCvtxU rd s
  | .cvtxS rd => Sys2Proof.Machine.execCvtxS rd s
  | .cvtxF rd => Sys2Proof.Machine.execCvtxF rd s
  | .bitw rd rs1 => Sys2Proof.Machine.execBitw rd rs1 s
  | .ebitw rd rs1 => Sys2Proof.Machine.execEbitw rd rs1 s
  | .elen rd rs1 => Sys2Proof.Machine.execElen rd rs1 s
  | .ctz rd rs1 => Sys2Proof.Machine.execCtz rd rs1 s
  | .dec rd ro ra => Sys2Proof.Machine.execDec rd ro ra s
  | .enc rv ro rc => Sys2Proof.Machine.execEnc rv ro rc s
  | .mflen rd => Sys2Proof.Machine.execMflen rd s
  | .mfst rd => Sys2Proof.Machine.execMfst rd s
  | .add rd rs1 rs2 => Sys2Proof.Machine.execAdd rd rs1 rs2 s
  | .sub rd rs1 rs2 => Sys2Proof.Machine.execSub rd rs1 rs2 s
  | .mul rd rs1 rs2 => Sys2Proof.Machine.execMul rd rs1 rs2 s
  | .div rd rs1 rs2 => Sys2Proof.Machine.execDiv rd rs1 rs2 s
  | .rem rd rs1 rs2 => Sys2Proof.Machine.execRem rd rs1 rs2 s
  | .and rd rs1 rs2 => Sys2Proof.Machine.execAnd rd rs1 rs2 s
  | .or rd rs1 rs2 => Sys2Proof.Machine.execOr rd rs1 rs2 s
  | .xor rd rs1 rs2 => Sys2Proof.Machine.execXor rd rs1 rs2 s
  | .not rd rs1 => Sys2Proof.Machine.execNot rd rs1 s
  | .shl rd rs1 rs2 => Sys2Proof.Machine.execShl rd rs1 rs2 s
  | .shr rd rs1 rs2 => Sys2Proof.Machine.execShr rd rs1 rs2 s
  | .eq rd rs1 rs2 => Sys2Proof.Machine.execEq rd rs1 rs2 s
  | .ne rd rs1 rs2 => Sys2Proof.Machine.execNe rd rs1 rs2 s
  | .lt rd rs1 rs2 => Sys2Proof.Machine.execLt rd rs1 rs2 s
  | .le rd rs1 rs2 => Sys2Proof.Machine.execLe rd rs1 rs2 s
  | .gt rd rs1 rs2 => Sys2Proof.Machine.execGt rd rs1 rs2 s
  | .ge rd rs1 rs2 => Sys2Proof.Machine.execGe rd rs1 rs2 s

end Sys2Proof.Machine
end

