-- ==== Sys2Proof/Machine/Port.lean ====
section
/-! DEFINITION. The host's ports: ISSUE and the other operations of 10_state.md R39. -/

namespace Sys2Proof.Machine

/-- `ISSUE(c)` (30_encoding.md R70): ignored while FAULT = 1, else ILLEGAL for a word that encodes no command,
else the command. -/
def issue (c : Command) (s : State) : Out :=
  if s.status.fault then .next s
  else
    match decode c with
    | .error _ => raiseFault .illegal s
    | .ok i => exec i s

/-- `WR_BUF` (10_state.md R39). -/
def portWrBuf (a : Nat) (b : Byte) (s : State) : Out :=
  if a < s.cfg.wbufSize then .next (s.writeByte a b) else .fault (.wbufAddress a)

/-- `RD_BUF` (10_state.md R39; 20_memory.md R56). -/
def portRdBuf (a : Nat) (s : State) : Out :=
  if a < s.cfg.wbufSize then
    .next { (s.readByte a).2 with resp := some (.byte (s.readByte a).1) }
  else .fault (.wbufAddress a)

/-- One host operation (10_state.md R39). All but ISSUE act the same while FAULT = 1. -/
def perform (op : HostOp) (s : State) : Out :=
  match op with
  | .reset => .next (applyReset s)
  | .wrDin w => .next { s with din := w }
  | .wrBuf a b => portWrBuf a b s
  | .rdBuf a => portRdBuf a s
  | .rdV i => .next { s with resp := some (.value (s.reg i)) }
  | .rdStatus => .next { s with resp := some (.status s.status.word) }
  | .issue c => issue c s

/-- The state in which the next host operation is performed: it is taken from the sequence, and nothing has
been returned for it yet (assumptions 1 and 2). -/
def State.accept (s : State) (rest : List HostOp) : State :=
  { s with pending := rest, resp := none }

/-- The host operation that issues a word of `nbits` bits (30_encoding.md R71). -/
def issueOp (nbits w : Nat) : HostOp := .issue (BitVec.ofNat 32 (w % 2 ^ nbits))

end Sys2Proof.Machine
end

