-- ==== Sys2Proof/Machine/Step.lean ====
section
/-! DEFINITION. One step: the next host operation, if there is one. -/

namespace Sys2Proof.Machine

/-- One step of the model is one host operation (10_state.md R20, R39). With none to perform the block is idle
and holds its state (60_exceptions.md R218; assumption 3). -/
def step (s : State) : Host.Outcome State Fault Refusal :=
  match s.pending with
  | [] => .next s
  | op :: rest => perform op (s.accept rest)

/-- `s` with an ISSUE of the word as the host's next operation: the block fetches nothing, so that is where a
command comes from (10_state.md R21; assumption 1). -/
def State.withFetchWord (s : State) (nbits w : Nat) : State :=
  { s with pending := issueOp nbits w :: s.pending }

end Sys2Proof.Machine
end

