-- ==== Sys2Proof/WellFormed.lean ====
section
/-! DEFINITION. What is well formed beyond the types. Every term of `Instr` is well formed by its types: all 8
values of a register field and all 65536 immediates are valid (30_encoding.md R74), so no check is made of it.
What remains are host operations and assembler operands. -/

namespace Sys2Proof

/-- A host operation names a byte that exists: "no host operation can name a location that does not exist"
(10_state.md R39). -/
abbrev HostOp.WellFormed (p : Config.Params) : HostOp → Prop
  | .wrBuf a _ => a < p.wbufSize
  | .rdBuf a => a < p.wbufSize
  | _ => True

/-- The operand check an assembler must make: registers `V0` to `V7`, immediates 0 to 65535
(30_encoding.md R81, R83). -/
def AsmOperand.wellFormed : AsmOperand → Bool
  | .reg n => decide (n < 8)
  | .imm n => decide (n ≤ 65535)

end Sys2Proof
end

