-- ==== Sys2Proof/Machine/Asm.lean ====
section
/-! DEFINITION. The assembler: from program text to host operations (30_encoding.md R81 to R83). What the spec
leaves open of the notation is assumption 16. -/

namespace Sys2Proof.Machine

/-- Why an assembler refuses a line (30_encoding.md R83). -/
inductive AsmError where
  | unknownMnemonic
  | unknownDirective
  | operandCount
  | badOperand
  | outOfRange
  deriving DecidableEq, Repr

/-! ### Characters -/

/-- Mnemonics and register names are case-insensitive (R81). -/
def upperChar (c : Char) : Char :=
  if 97 ≤ c.toNat ∧ c.toNat ≤ 122 then Char.ofNat (c.toNat - 32) else c

def isSpace (c : Char) : Bool := c == ' ' || c == '\t'

/-- `;` begins a comment that runs to the end of the line (R81). -/
def stripComment (l : List Char) : List Char := l.takeWhile (fun c => c != ';')

def trim (l : List Char) : List Char :=
  ((l.dropWhile isSpace).reverse.dropWhile isSpace).reverse

/-- The pieces of a list between separators. -/
def splitAtChar (sep : Char) : List Char → List (List Char)
  | [] => [[]]
  | c :: cs =>
    if c == sep then [] :: splitAtChar sep cs
    else
      match splitAtChar sep cs with
      | [] => [[c]]
      | w :: ws => (c :: w) :: ws

/-- The space-separated words of a list. -/
def wordsOf (l : List Char) : List (List Char) :=
  (splitAtChar ' ' (l.map (fun c => if isSpace c then ' ' else c))).filter (fun w => !w.isEmpty)

/-! ### Numbers -/

def digitValue (c : Char) : Option Nat :=
  if 48 ≤ c.toNat ∧ c.toNat ≤ 57 then some (c.toNat - 48)
  else if 65 ≤ c.toNat ∧ c.toNat ≤ 70 then some (c.toNat - 55)
  else if 97 ≤ c.toNat ∧ c.toNat ≤ 102 then some (c.toNat - 87)
  else none

/-- Digits in a base, `_` allowed between two of them (R81). `prev` says that a digit stands just before. -/
def parseDigits (base : Nat) : Nat → Bool → List Char → Option Nat
  | acc, prev, [] => if prev then some acc else none
  | acc, prev, c :: cs =>
    if c == '_' then (if prev then parseDigits base acc false cs else none)
    else
      match digitValue c with
      | some d => if d < base then parseDigits base (acc * base + d) true cs else none
      | none => none

/-- A number, decimal or `0x` hex (R81). -/
def parseNumber : List Char → Option Nat
  | '0' :: 'x' :: ds => parseDigits 16 0 false ds
  | ds => parseDigits 10 0 false ds

/-- A 64-bit source word: unsigned, or a signed decimal written as its two's complement (R82). -/
def parseDin : List Char → Except AsmError Word
  | '-' :: ds =>
    match parseDigits 10 0 false ds with
    | some n => if n ≤ 2 ^ 63 then .ok (BitVec.ofNat 64 (2 ^ 64 - n)) else .error .outOfRange
    | none => .error .badOperand
  | ds =>
    match parseNumber ds with
    | some n => if n < 2 ^ 64 then .ok (BitVec.ofNat 64 n) else .error .outOfRange
    | none => .error .badOperand

/-- One byte of a byte sequence: two hex digits (00_scope.md R8). -/
def parseByte : List Char → Option Byte
  | [h, l] =>
    match digitValue h, digitValue l with
    | some a, some b => some (BitVec.ofNat 8 (a * 16 + b))
    | _, _ => none
  | _ => none

/-! ### Commands and pseudo-instructions -/

/-- One operand: `V` and a digit, or a number (R81). -/
def parseOperand : List Char → Option AsmOperand
  | [] => none
  | v :: ds =>
    if upperChar v == 'V' then
      match ds with
      | [d] =>
        match digitValue d with
        | some n => if n < 10 then some (.reg n) else none
        | none => none
      | _ => none
    else (parseNumber (v :: ds)).map .imm

def parseOperands : List (List Char) → Option (List AsmOperand)
  | [] => some []
  | w :: ws =>
    match parseOperand (trim w), parseOperands ws with
    | some o, some os => some (o :: os)
    | _, _ => none

/-- The number of operands each format's syntax has (R81). -/
def formArity : Form → Nat
  | .r3 _ => 3
  | .r2 _ => 2
  | .r1 _ => 1
  | .imm _ => 2

/-- The instruction of a form's operands, each of the kind its place asks for (R81). -/
def applyForm : Form → List AsmOperand → Option Instr
  | .r3 mk, [.reg d, .reg s, .reg t] => some (mk (BitVec.ofNat 3 d) (BitVec.ofNat 3 s) (BitVec.ofNat 3 t))
  | .r2 mk, [.reg d, .reg s] => some (mk (BitVec.ofNat 3 d) (BitVec.ofNat 3 s))
  | .r1 mk, [.reg d] => some (mk (BitVec.ofNat 3 d))
  | .imm mk, [.reg d, .imm n] => some (mk (BitVec.ofNat 3 d) (BitVec.ofNat 16 n))
  | _, _ => none

/-- The refusals an assembler must make: a wrong operand count, an immediate outside 0 to 65535, a register
name outside `V0` to `V7` (R83); and an operand of the wrong kind. -/
def assembleForm (f : Form) (os : List AsmOperand) : Except AsmError Instr :=
  if os.length ≠ formArity f then .error .operandCount
  else if os.all AsmOperand.wellFormed = false then .error .outOfRange
  else
    match applyForm f os with
    | some i => .ok i
    | none => .error .badOperand

/-- The pseudo-instructions with their one-command expansions (R83). -/
def pseudoTable : List (String × Form) :=
  [ ("MOV", .r2 (fun d s => .or d s s))
  , ("CLR", .r1 (fun d => .ldi d 0))
  , ("LDMIN", .r1 (fun d => .ldi d 0))
  , ("NOT62", .r3 (fun d s m => .xor d s m)) ]

/-- The form of a mnemonic or pseudo-instruction, spelled in capitals. -/
def formOf (mnemonic : List Char) : Option Form :=
  match opcodeTable.find? (fun r => r.mnemonic.toList == mnemonic) with
  | some r => some r.form
  | none => (pseudoTable.find? (fun p => p.1.toList == mnemonic)).map Prod.snd

/-- The operand texts of a command: none, or pieces separated by commas (R81). -/
def operandTexts (l : List Char) : List (List Char) :=
  if (trim l).isEmpty then [] else splitAtChar ',' l

/-- One command: a mnemonic, then its operands (R81). -/
def assembleCommand (line : List Char) : Except AsmError Instr :=
  match formOf ((line.takeWhile (fun c => !isSpace c)).map upperChar) with
  | none => .error .unknownMnemonic
  | some f =>
    match parseOperands (operandTexts (line.dropWhile (fun c => !isSpace c))) with
    | none => .error .badOperand
    | some os => assembleForm f os

/-! ### Directives (R82) -/

/-- `.buf` writes consecutive bytes, one WR_BUF per byte (R82), each at an address the port can name. -/
def bufOps (size : Nat) : Nat → List (List Char) → Except AsmError (List HostOp)
  | _, [] => .ok []
  | a, w :: ws =>
    match parseByte w, bufOps size (a + 1) ws with
    | none, _ => .error .badOperand
    | some _, .error e => .error e
    | some b, .ok ops => if a < size then .ok (.wrBuf a b :: ops) else .error .outOfRange

/-- `.buf <addr>: b0 b1 ...` after its name (R82). -/
def assembleBuf (size : Nat) (rest : List Char) : Except AsmError (List HostOp) :=
  match splitAtChar ':' rest with
  | [addr, bytes] =>
    match parseNumber (trim addr), wordsOf bytes with
    | none, _ => .error .badOperand
    | some _, [] => .error .operandCount
    | some a, ws => bufOps size a ws
  | _ => .error .operandCount

/-- A host directive (R82). -/
def assembleDirective (p : Config.Params) (name rest : List Char) : Except AsmError (List HostOp) :=
  if name == ".reset".toList then
    if (trim rest).isEmpty then .ok [.reset] else .error .operandCount
  else if name == ".din".toList then
    match parseDin (trim rest) with
    | .ok w => .ok [.wrDin w]
    | .error e => .error e
  else if name == ".buf".toList then assembleBuf p.wbufSize rest
  else .error .unknownDirective

/-- One line of a program: nothing, a directive, or a command, which the host issues (R81, R82). -/
def assembleLine (p : Config.Params) (text : List Char) : Except AsmError (List HostOp) :=
  match trim (stripComment text) with
  | [] => .ok []
  | '.' :: cs =>
    assembleDirective p ('.' :: cs.takeWhile (fun c => !isSpace c)) (cs.dropWhile (fun c => !isSpace c))
  | line =>
    match assembleCommand line with
    | .ok i => .ok [.issue (encode i)]
    | .error e => .error e

/-- The lines of a program, in order: the host operations it stands for, or the first line refused. -/
def assembleLines (p : Config.Params) : List (List Char) → Except AsmError (List HostOp)
  | [] => .ok []
  | l :: ls =>
    match assembleLine p l with
    | .error e => .error e
    | .ok ops =>
      match assembleLines p ls with
      | .error e => .error e
      | .ok rest => .ok (ops ++ rest)

/-- A program's text, one command or directive per line (R81). -/
def assemble (p : Config.Params) (text : List Char) : Except AsmError (List HostOp) :=
  assembleLines p (splitAtChar '\n' text)

end Sys2Proof.Machine
end

