-- ==== Sys2Proof/Safety.lean ====
section
/-! DEFINITION. The terms claims are made in: the invariant of the block, and what a command leaves changed and
unchanged when it completes, reports or faults (60_exceptions.md R200). -/

namespace Sys2Proof.Machine

/-! ### The invariant -/

/-- Every value register holds a value in [0, MAX] (10_state.md R23). -/
def ValuesInRange (s : State) : Prop := ∀ r : Reg, s.val r ≤ maxValue

/-- The contents STATUS can have (10_state.md R29 to R33): ERR is never PARSE_ERROR; LEN and REQ are 0 or a
wire length; BUFFER_TOO_SMALL stands with `LEN = 0` and a needed length, EMPTY with both 0; a needed length is
recorded only with `LEN = 0`; and a cause is recorded exactly while FAULT = 1. -/
abbrev Status.legal (t : Status) : Prop :=
  t.err ≠ .parseError
  ∧ t.len ∈ [0#4, 1#4, 2#4, 4#4, 8#4] ∧ t.req ∈ [0#4, 1#4, 2#4, 4#4, 8#4]
  ∧ (t.err = .bufferTooSmall → t.len = 0#4 ∧ t.req ≠ 0#4)
  ∧ (t.err = .empty → t.len = 0#4 ∧ t.req = 0#4)
  ∧ (t.req ≠ 0#4 → t.len = 0#4)
  ∧ (t.fault = true ↔ t.fcause ≠ .none)

/-- What every step keeps: the registers in range, STATUS legal, WBUF in canonical form and inside its
bounds. -/
def BlockInv (s : State) : Prop :=
  ValuesInRange s ∧ s.status.legal ∧ Memory.wf s.cfg.wbufSize s.wbuf

/-! ### Frames -/

/-- What lies outside the value registers, STATUS, WBUF and the draw counter is the same in `t` as in `s`: DIN,
the parameters, the operations to come and the last response. -/
structure SamePorts (s t : State) : Prop where
  din : t.din = s.din
  cfg : t.cfg = s.cfg
  pending : t.pending = s.pending
  resp : t.resp = s.resp

/-- Every byte of WBUF reads in `t` as in `s`, unwritten ones included, from the same cells, and no byte has been
drawn. -/
structure SameBytes (s t : State) : Prop where
  bytes : ∀ a : Nat, t.byteAt a = s.byteAt a
  cells : t.wbuf = s.wbuf
  draws : t.draws = s.draws

/-- Every value register is the same in `t` as in `s`. -/
def SameRegs (s t : State) : Prop := ∀ r : Reg, t.reg r = s.reg r

/-- Every value register but `rd` is the same in `t` as in `s`. -/
def SameRegsBut (rd : Reg) (s t : State) : Prop := ∀ r : Reg, r ≠ rd → t.reg r = s.reg r

/-- The command completed: `v` is in `rd`, STATUS.ERR is OK, and nothing else changed. -/
structure Completes (rd : Reg) (v : Nat) (s t : State) : Prop where
  dest : t.val rd = v
  regs : SameRegsBut rd s t
  status : t.status = { s.status with err := .ok }
  bytes : SameBytes s t
  ports : SamePorts s t

/-- A move from STATUS completed: `v` is in `rd`, and nothing else changed. -/
structure Moves (rd : Reg) (v : Nat) (s t : State) : Prop where
  dest : t.val rd = v
  regs : SameRegsBut rd s t
  status : t.status = s.status
  bytes : SameBytes s t
  ports : SamePorts s t

/-- The command raised a fatal fault: FAULT is set with its cause, and nothing else changed (R202). -/
structure Faults (c : Cause) (s t : State) : Prop where
  regs : SameRegs s t
  status : t.status = { s.status with fault := true, fcause := c }
  bytes : SameBytes s t
  ports : SamePorts s t

/-- The command reported a recoverable error in STATUS.ERR, and nothing else changed (R201). -/
structure Reports (e : ErrCode) (s t : State) : Prop where
  regs : SameRegs s t
  status : t.status = { s.status with err := e }
  bytes : SameBytes s t
  ports : SamePorts s t

/-- STATUS as `DEC` and `ENC` leave it: ERR, LEN and REQ written, the rest as before (10_state.md R34). -/
structure CodecStatus (e : ErrCode) (len req : Nat) (s t : State) : Prop where
  err : t.status.err = e
  len : t.status.len.toNat = len
  req : t.status.req.toNat = req
  fault : t.status.fault = s.status.fault
  fcause : t.status.fcause = s.status.fcause

/-- `DEC` or `ENC` reported a recoverable error: ERR, LEN and REQ are written, and nothing else changed. -/
structure ReportsCodec (e : ErrCode) (len req : Nat) (s t : State) : Prop where
  regs : SameRegs s t
  status : CodecStatus e len req s t
  bytes : SameBytes s t
  ports : SamePorts s t

/-! ### What the commands name -/

/-- The register a command writes when it completes, if it has a destination field (30_encoding.md R72, R73). -/
def destination : Instr → Option Reg
  | .enc _ _ _ => none
  | .ldi rd _ => some rd
  | .ldmax rd | .cvtdU rd | .cvtdS rd | .cvtdF rd | .cvtcU rd | .cvtcS rd | .cvttU rd | .cvttS rd
  | .cvtxU rd | .cvtxS rd | .cvtxF rd | .mflen rd | .mfst rd => some rd
  | .bitw rd _ | .ebitw rd _ | .elen rd _ | .ctz rd _ | .not rd _ => some rd
  | .dec rd _ _ | .add rd _ _ | .sub rd _ _ | .mul rd _ _ | .div rd _ _ | .rem rd _ _ | .and rd _ _
  | .or rd _ _ | .xor rd _ _ | .shl rd _ _ | .shr rd _ _ | .eq rd _ _ | .ne rd _ _ | .lt rd _ _
  | .le rd _ _ | .gt rd _ _ | .ge rd _ _ => some rd

/-- The groups of commands by the fields of STATUS they write (10_state.md R34). -/
inductive StatusGroup where
  | errOnly
  | codec
  | unchanged
  deriving DecidableEq, Repr

/-- The row of the table of 10_state.md R34 a command stands in. -/
def statusGroup : Instr → StatusGroup
  | .dec _ _ _ => .codec
  | .enc _ _ _ => .codec
  | .mflen _ => .unchanged
  | .mfst _ => .unchanged
  | _ => .errOnly

/-- The causes a command can raise from registers in range (60_exceptions.md R203). -/
def possibleCauses : Instr → List Cause
  | .div _ _ _ => [.divZero]
  | .rem _ _ _ => [.divZero]
  | .cvtdU _ => [.range]
  | .cvtdS _ => [.range]
  | .cvtdF _ => [.range, .fpInvalid]
  | .cvtxU _ => [.range]
  | .cvtxS _ => [.range]
  | .cvtxF _ => [.range]
  | .add _ _ _ => [.range]
  | .sub _ _ _ => [.overflow]
  | .mul _ _ _ => [.overflow, .range]
  | .not _ _ => [.range]
  | .shl _ _ _ => [.range]
  | .dec _ _ _ => [.region]
  | .enc _ _ _ => [.region]
  | _ => []

/-- The recoverable errors a command can report (60_exceptions.md R204). -/
def possibleErrors : Instr → List ErrCode
  | .dec _ _ _ => [.empty, .bufferTooSmall]
  | .enc _ _ _ => [.bufferTooSmall]
  | .cvtxS _ => [.notExact]
  | .cvtxF _ => [.notExact]
  | _ => []

/-- The opcodes that 30_encoding.md R79 lists as unassigned. -/
def isUnassigned (op : BitVec 8) : Bool :=
  let n := op.toNat
  n ∈ [0x00, 0x03, 0x07, 0x0A, 0x0B, 0x0E, 0x0F]
  || (decide (0x13 ≤ n) && decide (n ≤ 0x17)) || (decide (0x1C ≤ n) && decide (n ≤ 0x1F))
  || (decide (0x24 ≤ n) && decide (n ≤ 0x2F)) || (decide (0x35 ≤ n) && decide (n ≤ 0x37))
  || n == 0x3E || n == 0x3F || decide (0x46 ≤ n)

/-! ### Values the spec names, written apart from the machine -/

/-- The value of a binary64 word, none for a NaN or an infinity: 40_construct.md R101 as it stands, in exact
rationals. -/
def binary64Value (w : Word) : Option ℚ :=
  let sign : ℚ := if w.getLsbD 63 then -1 else 1
  let e : Nat := w.toNat / 2 ^ 52 % 2 ^ 11
  let f : Nat := w.toNat % 2 ^ 52
  if e = 0x7FF then none
  else if e = 0 then some (sign * f * (2 : ℚ) ^ (-1074 : ℤ))
  else some (sign * (2 ^ 52 + f) * (2 : ℚ) ^ ((e : ℤ) - 1075))

/-- The bytes `WBUF[off .. off + bs.length - 1]` are written and hold `bs`. -/
def Holds (s : State) (off : Nat) (bs : List Byte) : Prop :=
  ∀ (i : Nat) (h : i < bs.length), s.byteAt (off + i) = some bs[i]

/-- The four wire lengths with their prefixes (42_codec.md R140). -/
def wireLengths : List (Nat × Nat) := [(1, 0), (2, 1), (4, 2), (8, 3)]

/-- The `L`-byte big-endian integer `w`, byte by byte: byte i is `w div 2^(8(L-1-i)) mod 256` (42_codec.md
R140, R145). -/
def bigEndian (w l : Nat) : List Byte :=
  (List.range l).map fun i => BitVec.ofNat 8 (w / 2 ^ (8 * (l - 1 - i)) % 256)

end Sys2Proof.Machine
end

