-- ==== Sys2Proof/Certificates/Slice0/Obligations.lean ====
section
/-! DEFINITION. The statements for the provers: what the spec's numbered rules say of the model. The predicates
they use (`Completes`, `Faults`, `Reports`, …) are those of Safety.lean and carry the frame: what a command leaves
unchanged. Where a statement rests on a choice of the model, its docstring names the entry of the assumption log. -/

open Sys2Proof Sys2Proof.Machine

/-! ## Encoding (30_encoding.md) -/

/-- Decoding the word of any command gives that command back, whatever its operands (R72 to R75). -/
def Obligations.DecodeInvertsEncode : Prop :=
  ∀ i : Instr, decode (encode i) = .ok i

/-- A word that decodes to a command is that command's word: every bit of a legal word counts (R72 to R77). -/
def Obligations.EncodeInvertsDecode : Prop :=
  ∀ (c : Command) (i : Instr), decode c = .ok i → encode i = c

/-- R78: a word is legal iff some row of the table has `c & mask = match`, and at most one row can match: every
mask covers the 8 opcode bits and no two rows share an opcode. -/
def Obligations.LegalWordMatchesExactlyOneRow : Prop :=
  ∀ c : Command,
    (legal c = true ↔ ∃ r ∈ opcodeTable, c &&& r.mask = r.matchWord)
    ∧ ∀ r ∈ opcodeTable, ∀ q ∈ opcodeTable,
        (c &&& r.mask = r.matchWord → c &&& q.mask = q.matchWord → r = q)
        ∧ r.mask.extractLsb' 24 8 = 0xFF#8 ∧ (r.op = q.op → r = q)

/-- R79: the listed opcodes are exactly those of no row, and every word with one of them is illegal, the
all-zero and the all-ones word among them. -/
def Obligations.UnassignedOpcodesAreIllegal : Prop :=
  (∀ op : BitVec 8, isUnassigned op = true ↔ ∀ r ∈ opcodeTable, r.op ≠ op)
  ∧ (∀ c : Command, isUnassigned (c.extractLsb' 24 8) = true → legal c = false)
  ∧ legal 0x00000000 = false ∧ legal 0xFFFFFFFF = false

/-- R76: the construction opcodes are `0x04 + 4*policy + type`; the cells of the grid without a command are
illegal, whatever the other 24 bits. -/
def Obligations.ConstructionOpcodesFormAGrid : Prop :=
  (∀ rd : Reg,
    (encode (.cvtdU rd)).toNat / 2 ^ 24 = 0x04 + 4 * 0 + 0
    ∧ (encode (.cvtdS rd)).toNat / 2 ^ 24 = 0x04 + 4 * 0 + 1
    ∧ (encode (.cvtdF rd)).toNat / 2 ^ 24 = 0x04 + 4 * 0 + 2
    ∧ (encode (.cvtcU rd)).toNat / 2 ^ 24 = 0x04 + 4 * 1 + 0
    ∧ (encode (.cvtcS rd)).toNat / 2 ^ 24 = 0x04 + 4 * 1 + 1
    ∧ (encode (.cvttU rd)).toNat / 2 ^ 24 = 0x04 + 4 * 2 + 0
    ∧ (encode (.cvttS rd)).toNat / 2 ^ 24 = 0x04 + 4 * 2 + 1
    ∧ (encode (.cvtxU rd)).toNat / 2 ^ 24 = 0x04 + 4 * 3 + 0
    ∧ (encode (.cvtxS rd)).toNat / 2 ^ 24 = 0x04 + 4 * 3 + 1
    ∧ (encode (.cvtxF rd)).toNat / 2 ^ 24 = 0x04 + 4 * 3 + 2)
  ∧ ∀ c : Command,
      (∃ policy : Nat, policy < 4 ∧
        (c.toNat / 2 ^ 24 = 0x04 + 4 * policy + 3
         ∨ ((policy = 1 ∨ policy = 2) ∧ c.toNat / 2 ^ 24 = 0x04 + 4 * policy + 2)))
      → legal c = false

/-- The words of 95_test_vectors.md §2.7 decode to the commands it names, and its illegal words to none. -/
def Obligations.SpecWordsDecode : Prop :=
  decode 0x30AA0000 = .ok (.add 5 2 4) ∧ decode 0x21BB8000 = .ok (.enc 5 6 7)
  ∧ decode 0x20408000 = .ok (.dec 2 0 1) ∧ decode 0x18200000 = .ok (.bitw 1 0)
  ∧ decode 0x3BF80000 = .ok (.not 7 6) ∧ decode 0x22600000 = .ok (.mflen 3)
  ∧ decode 0x02E00000 = .ok (.ldmax 7) ∧ decode 0x01200010 = .ok (.ldi 1 16)
  ∧ decode 0x31258000 = .ok (.sub 1 1 3) ∧ decode 0x45FF8000 = .ok (.ge 7 7 7)
  ∧ decode 0x01E0FFFF = .ok (.ldi 7 65535)
  ∧ decode 0x0A000000 = .error (.unassignedOpcode 0x0A)
  ∧ decode 0x20408001 = .error (.mustBeZero "DEC")
  ∧ decode 0x01010000 = .error (.mustBeZero "LDI")

/-! ## The step and the host's ports (10_state.md, 30_encoding.md, 60_exceptions.md) -/

/-- R70: a step that takes an ISSUE of a legal word, the block not faulted, is that command's execution, in the
state from which the operation has been taken. That a step takes the next of a list of host operations is the
model's form (assumption 1). -/
def Obligations.StepRunsTheDecodedCommand : Prop :=
  ∀ (s : State) (c : Command) (i : Instr) (rest : List HostOp),
    s.pending = .issue c :: rest → s.status.fault = false → decode c = .ok i →
      step s = exec i { s with pending := rest, resp := none }

/-- R80: a step that takes an ISSUE of a word that encodes no command raises ILLEGAL and changes nothing else.
The sequence moves on to the next operation (assumption 1). -/
def Obligations.IllegalWordRaisesIllegal : Prop :=
  ∀ (s : State) (c : Command) (rest : List HostOp),
    s.pending = .issue c :: rest → s.status.fault = false → legal c = false →
      ∃ t, step s = .next t ∧ Faults .illegal { s with pending := rest, resp := none } t

/-- R205, R206: while FAULT = 1 an ISSUE of any word, legal or not, changes nothing, so FCAUSE stays; RD_STATUS
returns STATUS, and WR_DIN, WR_BUF, RD_BUF and RD_V do what they do under any other STATUS; only RESET leaves the
faulted state. -/
def Obligations.FaultedBlockIgnoresCommands : Prop :=
  ∀ s : State, s.status.fault = true →
    (∀ (c : Command) (rest : List HostOp), s.pending = .issue c :: rest →
      step s = .next { s with pending := rest, resp := none })
    ∧ (∀ (op : HostOp) (t : State), op ≠ .reset → perform op s = .next t → t.status = s.status)
    ∧ (∀ (op : HostOp) (t : State), perform op s = .next t →
        (t.status.fault = false ↔ op = .reset))
    ∧ perform .rdStatus s = .next { s with resp := some (.status s.status.word) }
    ∧ (∀ (op : HostOp) (t : State) (x : Status), op ≠ .reset → op ≠ .rdStatus → (∀ c, op ≠ .issue c) →
        perform op s = .next t → perform op { s with status := x } = .next { t with status := x })

/-- R39: what each host operation but ISSUE and RESET does, faulted or not, for every address below WBUF_SIZE
(RD_BUF of an unwritten byte: `UnwrittenByteIsADraw`). Nothing else changes. -/
def Obligations.HostPortsActAsListed : Prop :=
  ∀ (s : State) (rest : List HostOp),
    (∀ w, s.pending = .wrDin w :: rest →
      step s = .next { s with pending := rest, resp := none, din := w })
    ∧ (∀ a b, s.pending = .wrBuf a b :: rest → a < s.cfg.wbufSize →
        ∃ t, step s = .next t ∧ t.byteAt a = some b ∧ (∀ k, k ≠ a → t.byteAt k = s.byteAt k)
          ∧ t.regs = s.regs ∧ t.din = s.din ∧ t.status = s.status ∧ t.cfg = s.cfg
          ∧ t.pending = rest ∧ t.resp = none ∧ t.draws = s.draws)
    ∧ (∀ a b, s.pending = .rdBuf a :: rest → a < s.cfg.wbufSize → s.byteAt a = some b →
        step s = .next { s with pending := rest, resp := some (.byte b) })
    ∧ (∀ i, s.pending = .rdV i :: rest →
        step s = .next { s with pending := rest, resp := some (.value (s.reg i)) })
    ∧ (s.pending = .rdStatus :: rest →
        step s = .next { s with pending := rest, resp := some (.status s.status.word) })

/-- R230: RESET, from any state and so from power-on (R232) or a faulted block, puts every register, DIN and
STATUS at 0 and leaves no byte of WBUF written. -/
def Obligations.ResetPutsEveryRegisterAtZero : Prop :=
  ∀ (s : State) (rest : List HostOp), s.pending = .reset :: rest →
    ∃ t, step s = .next t ∧ (∀ r, t.reg r = 0) ∧ t.din = 0 ∧ t.status.word = 0
      ∧ t.status.err = .ok ∧ t.status.fcause = .none ∧ t.faultO = false
      ∧ (∀ a, t.byteAt a = none)

/-- R230, R6: the state the model starts from has the reset values and the default parameters. That it starts
there, after a RESET, is the model's choice (assumption 7). -/
def Obligations.InitialStateHasTheResetValues : Prop :=
  (∀ r, State.reset.reg r = 0) ∧ State.reset.din = 0 ∧ State.reset.status.word = 0
  ∧ State.reset.faultO = false ∧ (∀ a, State.reset.byteAt a = none)
  ∧ State.reset.cfg.wbufSize = 64 ∧ State.reset.cfg.notWidth = .w64
  ∧ State.reset.cfg.ctzZero = .z64

/-- R56, RS7: RD_BUF of a byte nothing has written returns a free byte, and reading it again returns the next
one: nothing relates the two. The count of draws is the model's (assumption 4). -/
def Obligations.UnwrittenByteIsADraw : Prop :=
  ∀ (s : State) (a : Nat) (rest : List HostOp), s.byteAt a = none → a < s.cfg.wbufSize →
    s.pending = .rdBuf a :: .rdBuf a :: rest →
      ∃ t u, step s = .next t ∧ step t = .next u
        ∧ t.resp = some (.byte (Config.freeByte s.draws))
        ∧ u.resp = some (.byte (Config.freeByte (s.draws + 1)))
        ∧ u.draws = s.draws + 2 ∧ u.byteAt a = none
        ∧ u = { s with pending := rest, resp := u.resp, draws := u.draws }

/-- R56, R62: after WR_BUF a byte reads as the last value written, and stays so: a second read gives the same
byte, and every other written byte reads as before. -/
def Obligations.ReadReturnsTheLastByteWritten : Prop :=
  ∀ (s : State) (a k : Nat) (b c : Byte) (rest : List HostOp),
    a < s.cfg.wbufSize → k < s.cfg.wbufSize → (k ≠ a → s.byteAt k = some c) →
    s.pending = .wrBuf a b :: .rdBuf k :: .rdBuf k :: rest →
      ∃ t u v, step s = .next t ∧ step t = .next u ∧ step u = .next v
        ∧ u.resp = some (.byte (if k = a then b else c)) ∧ v.resp = u.resp
        ∧ v.pending = rest

/-- R218, R231: with no operation to perform the block is idle and holds its state. That an idle block is a
step at all is the model's choice (assumption 3). -/
def Obligations.IdleBlockHoldsItsState : Prop :=
  ∀ s : State, s.pending = [] → step s = .next s

/-- R39: no host operation names a byte at or above WBUF_SIZE; the model stops on one (assumption 8), and on
nothing else. -/
def Obligations.OnlyAbsentBytesStopTheModel : Prop :=
  ∀ (s : State) (op : HostOp) (rest : List HostOp), s.pending = op :: rest →
    ((∃ a, (op = .rdBuf a ∨ ∃ b, op = .wrBuf a b) ∧ s.cfg.wbufSize ≤ a
        ∧ step s = .fault (.wbufAddress a))
     ∨ ∃ t, step s = .next t)
    ∧ ∀ a, (op = .rdBuf a ∨ ∃ b, op = .wrBuf a b) → s.cfg.wbufSize ≤ a →
        step s = .fault (.wbufAddress a)

/-- R40: no host operation but RESET and ISSUE changes a value register or STATUS, and an ISSUE changes at most
the destination register of the command its word encodes. -/
def Obligations.RegistersChangeOnlyThroughCommands : Prop :=
  ∀ (s t : State) (op : HostOp), perform op s = .next t → op ≠ .reset →
    ((∀ c, op ≠ .issue c) → (∀ r, t.reg r = s.reg r) ∧ t.status = s.status)
    ∧ (∀ c, op = .issue c → ∀ r, t.reg r ≠ s.reg r →
        ∃ i, decode c = .ok i ∧ destination i = some r ∧ s.status.fault = false)

/-- R27: DIN changes only by WR_DIN and RESET, in any step. -/
def Obligations.DinIsWrittenOnlyByTheHost : Prop :=
  ∀ s t : State, step s = .next t → t.din ≠ s.din →
    (∃ w rest, s.pending = .wrDin w :: rest ∧ t.din = w)
    ∨ (∃ rest, s.pending = .reset :: rest ∧ t.din = 0)

/-! ## Invariants -/

/-- Every step keeps the invariant: registers at most MAX (R23), STATUS legal (R29 to R33), WBUF in canonical
form and within its bounds (R50). -/
def Obligations.StepKeepsTheInvariant : Prop :=
  ∀ s t : State, BlockInv s → step s = .next t → BlockInv t

/-- The invariant holds of the reset state. -/
def Obligations.ResetStateHasTheInvariant : Prop := BlockInv State.reset

/-- R23: values at most MAX stay so through every step, so bits 63:62 of every register are 0; and they are so
after reset. This needs no other part of the invariant. -/
def Obligations.RegistersStayInRange : Prop :=
  (∀ s t : State, (∀ r, s.val r ≤ 2 ^ 62 - 1) → step s = .next t →
    ∀ r, t.val r ≤ 2 ^ 62 - 1 ∧ (t.reg r).extractLsb' 62 2 = 0#2)
  ∧ ∀ r, State.reset.val r ≤ 2 ^ 62 - 1

/-- The parameters of R6 are fixed: no step writes them. That they stand in the state is the model's choice
(assumption 6). -/
def Obligations.ParametersNeverChange : Prop :=
  ∀ s t : State, step s = .next t → t.cfg = s.cfg

/-! ## Whole-machine rules over all commands -/

/-- R236: every command, from every state, ends in a next state: no command stops the model. -/
def Obligations.EveryCommandEndsInOneStep : Prop :=
  ∀ (i : Instr) (s : State), ∃ t, exec i s = .next t

/-- What no command changes: DIN, the parameters, the operations to come, the response; every register but the
destination; every byte of WBUF but the `elen` bytes ENC stores at its offset; and only DEC draws bytes. -/
def Obligations.CommandFrame : Prop :=
  ∀ (i : Instr) (s t : State), exec i s = .next t →
    SamePorts s t
    ∧ (∀ r, destination i ≠ some r → t.reg r = s.reg r)
    ∧ (∀ rv ro rc, i = .enc rv ro rc →
        ∀ a, (a < s.val ro ∨ s.val ro + elen (s.val rv) ≤ a) → t.byteAt a = s.byteAt a)
    ∧ ((∀ rv ro rc, i ≠ .enc rv ro rc) → ∀ a, t.byteAt a = s.byteAt a)
    ∧ ((∀ rd ro ra, i ≠ .dec rd ro ra) → t.draws = s.draws)

/-- R34: which fields of STATUS a command writes, from a block not faulted: those of its group when it raises no
fault, FAULT and FCAUSE alone when it does; and an ISSUE while FAULT = 1 writes nothing. -/
def Obligations.StatusFieldsWrittenByGroup : Prop :=
  (∀ (i : Instr) (s t : State), s.status.fault = false → exec i s = .next t → t.status.fault = false →
    match statusGroup i with
    | .errOnly => t.status = { s.status with err := t.status.err }
        ∧ (t.status.err = .ok ∨ t.status.err = .notExact)
    | .unchanged => t.status = s.status
    | .codec => t.status.fcause = s.status.fcause
        ∧ ((t.status.err = .ok ∧ t.status.len ∈ [1#4, 2#4, 4#4, 8#4] ∧ t.status.req = 0)
          ∨ (t.status.err = .empty ∧ t.status.len = 0 ∧ t.status.req = 0)
          ∨ (t.status.err = .bufferTooSmall ∧ t.status.len = 0
              ∧ t.status.req ∈ [1#4, 2#4, 4#4, 8#4])))
  ∧ (∀ (i : Instr) (s t : State), s.status.fault = false → exec i s = .next t → t.status.fault = true →
      t.status = { s.status with fault := true, fcause := t.status.fcause })
  ∧ ∀ (c : Command) (s t : State), s.status.fault = true → perform (.issue c) s = .next t →
      t.status = s.status

/-- R202: a command that faults sets FAULT and FCAUSE and changes nothing else: no register, no byte, no ERR,
LEN or REQ, no draw. -/
def Obligations.FaultingCommandChangesOnlyTheLatch : Prop :=
  ∀ (i : Instr) (s t : State), s.status.fault = false → exec i s = .next t → t.status.fault = true →
    ∃ c, c ≠ .none ∧ Faults c s t

/-- R203: from registers in range, each command raises only the causes the table lists for it; every command
not listed raises none. -/
def Obligations.FaultCausesAreThoseListed : Prop :=
  ∀ (i : Instr) (s t : State), ValuesInRange s → s.status.fault = false → exec i s = .next t →
    t.status.fault = true → t.status.fcause ∈ possibleCauses i

/-- R204, R201, R115: each command reports only the errors the table lists for it, and one that reports an
error writes no register and no byte of WBUF. -/
def Obligations.ReportedErrorsAreThoseListed : Prop :=
  ∀ (i : Instr) (s t : State), s.status.fault = false → statusGroup i ≠ .unchanged →
    exec i s = .next t → t.status.fault = false → t.status.err ≠ .ok →
      t.status.err ∈ possibleErrors i ∧ SameRegs s t ∧ ∀ a, t.byteAt a = s.byteAt a

/-! ## Operand entry (40_construct.md) -/

/-- R102: LDI. -/
def Obligations.LdiLoadsItsImmediate : Prop :=
  ∀ (rd : Reg) (imm : BitVec 16) (s : State),
    encode (.ldi rd imm) = 0x01#8 ++ rd ++ 0#5 ++ imm
    ∧ ∃ t, exec (.ldi rd imm) s = .next t ∧ Completes rd imm.toNat s t

/-- R103: LDMAX. -/
def Obligations.LdmaxLoadsMax : Prop :=
  ∀ (rd : Reg) (s : State),
    encode (.ldmax rd) = 0x02#8 ++ rd ++ 0#21
    ∧ ∃ t, exec (.ldmax rd) s = .next t ∧ Completes rd (2 ^ 62 - 1) s t

/-- R104, R111: CVTD.U and CVTX.U store an unsigned source of at most MAX and raise RANGE above it. -/
def Obligations.UnsignedSourceStoredOrRange : Prop :=
  ∀ (rd : Reg) (s : State),
    encode (.cvtdU rd) = 0x04#8 ++ rd ++ 0#21 ∧ encode (.cvtxU rd) = 0x10#8 ++ rd ++ 0#21
    ∧ ∀ i, i = .cvtdU rd ∨ i = .cvtxU rd →
      (s.din.toNat ≤ 2 ^ 62 - 1 → ∃ t, exec i s = .next t ∧ Completes rd s.din.toNat s t)
      ∧ (2 ^ 62 ≤ s.din.toNat → ∃ t, exec i s = .next t ∧ Faults .range s t)

/-- R105: CVTD.S stores a source in [0, MAX] and raises RANGE for a negative one and above MAX. -/
def Obligations.SignedDirectStoredOrRange : Prop :=
  ∀ (rd : Reg) (s : State),
    encode (.cvtdS rd) = 0x05#8 ++ rd ++ 0#21
    ∧ (0 ≤ s.din.toInt → s.din.toInt ≤ 2 ^ 62 - 1 →
        ∃ t, exec (.cvtdS rd) s = .next t ∧ Completes rd s.din.toInt.toNat s t)
    ∧ (s.din.toInt < 0 → ∃ t, exec (.cvtdS rd) s = .next t ∧ Faults .range s t)
    ∧ (2 ^ 62 ≤ s.din.toInt → ∃ t, exec (.cvtdS rd) s = .next t ∧ Faults .range s t)

/-- R112: CVTX.S stores a source in [0, MAX], reports NOT_EXACT for a negative one and raises RANGE above
MAX. -/
def Obligations.SignedExactStoredOrReported : Prop :=
  ∀ (rd : Reg) (s : State),
    encode (.cvtxS rd) = 0x11#8 ++ rd ++ 0#21
    ∧ (0 ≤ s.din.toInt → s.din.toInt ≤ 2 ^ 62 - 1 →
        ∃ t, exec (.cvtxS rd) s = .next t ∧ Completes rd s.din.toInt.toNat s t)
    ∧ (s.din.toInt < 0 → ∃ t, exec (.cvtxS rd) s = .next t ∧ Reports .notExact s t)
    ∧ (2 ^ 62 ≤ s.din.toInt → ∃ t, exec (.cvtxS rd) s = .next t ∧ Faults .range s t)

/-- R106 with R101: CVTD.F truncates the binary64 value toward zero; FP_INVALID for NaN, an infinity, `x ≤ -1`
and `x ≥ 2^64`; RANGE from `2^62` on. A value in (-1, 0] gives 0. -/
def Obligations.FloatDirectTruncates : Prop :=
  ∀ (rd : Reg) (s : State),
    encode (.cvtdF rd) = 0x06#8 ++ rd ++ 0#21
    ∧ (binary64Value s.din = none → ∃ t, exec (.cvtdF rd) s = .next t ∧ Faults .fpInvalid s t)
    ∧ ∀ x : ℚ, binary64Value s.din = some x →
        (x ≤ -1 ∨ 2 ^ 64 ≤ x → ∃ t, exec (.cvtdF rd) s = .next t ∧ Faults .fpInvalid s t)
        ∧ (2 ^ 62 ≤ x → x < 2 ^ 64 → ∃ t, exec (.cvtdF rd) s = .next t ∧ Faults .range s t)
        ∧ (-1 < x → x < 0 → ∃ t, exec (.cvtdF rd) s = .next t ∧ Completes rd 0 s t)
        ∧ (0 ≤ x → x < 2 ^ 62 → ∃ (n : Nat) (t : State), (n : ℚ) ≤ x ∧ x < n + 1
            ∧ exec (.cvtdF rd) s = .next t ∧ Completes rd n s t)

/-- R113 with R101: CVTX.F stores a binary64 value that is an integer in [0, MAX]; RANGE for an integer in
[2^62, 2^64); NOT_EXACT for everything else. -/
def Obligations.FloatExactStoredOrReported : Prop :=
  ∀ (rd : Reg) (s : State),
    encode (.cvtxF rd) = 0x12#8 ++ rd ++ 0#21
    ∧ (∀ n : Nat, binary64Value s.din = some (n : ℚ) →
        (n < 2 ^ 62 → ∃ t, exec (.cvtxF rd) s = .next t ∧ Completes rd n s t)
        ∧ (2 ^ 62 ≤ n → n < 2 ^ 64 → ∃ t, exec (.cvtxF rd) s = .next t ∧ Faults .range s t))
    ∧ ((∀ n : Nat, n < 2 ^ 64 → binary64Value s.din ≠ some (n : ℚ)) →
        ∃ t, exec (.cvtxF rd) s = .next t ∧ Reports .notExact s t)

/-- R107, R108: CVTC.U and CVTC.S pull the source to the nearest bound of [0, MAX]; they never fault. -/
def Obligations.ClampingSaturates : Prop :=
  ∀ (rd : Reg) (s : State),
    encode (.cvtcU rd) = 0x08#8 ++ rd ++ 0#21 ∧ encode (.cvtcS rd) = 0x09#8 ++ rd ++ 0#21
    ∧ (∃ t, exec (.cvtcU rd) s = .next t ∧ Completes rd (min s.din.toNat (2 ^ 62 - 1)) s t)
    ∧ (∃ t, exec (.cvtcS rd) s = .next t
        ∧ Completes rd (max 0 (min s.din.toInt (2 ^ 62 - 1))).toNat s t)

/-- R109, R110: CVTT.U and CVTT.S keep DIN[61:0], whatever the sign; they never fault. -/
def Obligations.TruncatingKeepsTheLow62Bits : Prop :=
  ∀ (rd : Reg) (s : State),
    encode (.cvttU rd) = 0x0C#8 ++ rd ++ 0#21 ∧ encode (.cvttS rd) = 0x0D#8 ++ rd ++ 0#21
    ∧ (∃ t, exec (.cvttU rd) s = .next t ∧ Completes rd (s.din.extractLsb' 0 62).toNat s t)
    ∧ (∃ t, exec (.cvttS rd) s = .next t ∧ Completes rd (s.din.extractLsb' 0 62).toNat s t)

/-! ## Classifier (41_classify.md) -/

/-- R131, R132, R133 with R130, R135: BITW gives the smallest b in {6, 14, 30, 62} with `v < 2^b`, EBITW gives
`b + 2` and ELEN `(b + 2) / 8`; they never fault on a value in range. -/
def Obligations.ClassifierGivesTheMinimumClass : Prop :=
  ∀ (rd rs1 : Reg) (s : State),
    encode (.bitw rd rs1) = 0x18#8 ++ rd ++ rs1 ++ 0#18
    ∧ encode (.ebitw rd rs1) = 0x19#8 ++ rd ++ rs1 ++ 0#18
    ∧ encode (.elen rd rs1) = 0x1A#8 ++ rd ++ rs1 ++ 0#18
    ∧ (s.val rs1 ≤ 2 ^ 62 - 1 →
        ∃ b ∈ [6, 14, 30, 62], s.val rs1 < 2 ^ b ∧ (∀ c ∈ [6, 14, 30, 62], s.val rs1 < 2 ^ c → b ≤ c)
          ∧ (∃ t, exec (.bitw rd rs1) s = .next t ∧ Completes rd b s t)
          ∧ (∃ t, exec (.ebitw rd rs1) s = .next t ∧ Completes rd (b + 2) s t)
          ∧ (∃ t, exec (.elen rd rs1) s = .next t ∧ Completes rd ((b + 2) / 8) s t))

/-- R134: CTZ gives the largest k with `a mod 2^k = 0`, and the parameter CTZ_ZERO for 0. -/
def Obligations.CtzCountsTrailingZeros : Prop :=
  ∀ (rd rs1 : Reg) (s : State),
    encode (.ctz rd rs1) = 0x1B#8 ++ rd ++ rs1 ++ 0#18
    ∧ (s.val rs1 = 0 → s.cfg.ctzZero = .z64 →
        ∃ t, exec (.ctz rd rs1) s = .next t ∧ Completes rd 64 s t)
    ∧ (s.val rs1 = 0 → s.cfg.ctzZero = .z6 →
        ∃ t, exec (.ctz rd rs1) s = .next t ∧ Completes rd 6 s t)
    ∧ (s.val rs1 ≠ 0 →
        ∃ (k : Nat) (t : State), s.val rs1 % 2 ^ k = 0 ∧ (∀ j, s.val rs1 % 2 ^ j = 0 → j ≤ k)
          ∧ exec (.ctz rd rs1) s = .next t ∧ Completes rd k s t)

/-! ## Codec (42_codec.md, 20_memory.md) -/

/-- R142 with R53, R57 and R141: DEC, once its first byte is written. The bytes after it that are written are
read as they stand, and those that are not are free (R56); none is drawn when all the bytes consumed are
written. -/
def Obligations.DecDecodesItsRegion : Prop :=
  ∀ (rd ro ra : Reg) (s : State),
    encode (.dec rd ro ra) = 0x20#8 ++ rd ++ ro ++ ra ++ 0#15
    ∧ (s.cfg.wbufSize < s.val ro + s.val ra →
        ∃ t, exec (.dec rd ro ra) s = .next t ∧ Faults .region s t)
    ∧ (s.val ro + s.val ra ≤ s.cfg.wbufSize → s.val ra = 0 →
        ∃ t, exec (.dec rd ro ra) s = .next t ∧ ReportsCodec .empty 0 0 s t)
    ∧ (∀ b0 : Byte, s.val ro + s.val ra ≤ s.cfg.wbufSize → 1 ≤ s.val ra →
        s.byteAt (s.val ro) = some b0 → s.val ra < 2 ^ (b0.toNat / 64) →
        ∃ t, exec (.dec rd ro ra) s = .next t
          ∧ ReportsCodec .bufferTooSmall 0 (2 ^ (b0.toNat / 64)) s t)
    ∧ (∀ b0 : Byte, s.val ro + s.val ra ≤ s.cfg.wbufSize → 1 ≤ s.val ra →
        s.byteAt (s.val ro) = some b0 → 2 ^ (b0.toNat / 64) ≤ s.val ra →
        ∃ (bs : List Byte) (t : State), bs.length + 1 = 2 ^ (b0.toNat / 64)
          ∧ (∀ (k : Nat) (h : k < bs.length) (b : Byte),
              s.byteAt (s.val ro + 1 + k) = some b → bs[k] = b)
          ∧ exec (.dec rd ro ra) s = .next t
          ∧ t.val rd = be (b0 :: bs) % 2 ^ (8 * 2 ^ (b0.toNat / 64) - 2)
          ∧ SameRegsBut rd s t ∧ CodecStatus .ok (2 ^ (b0.toNat / 64)) 0 s t
          ∧ t.wbuf = s.wbuf ∧ (∀ a, t.byteAt a = s.byteAt a) ∧ SamePorts s t
          ∧ ((∀ k, k < bs.length → s.byteAt (s.val ro + 1 + k) ≠ none) → t.draws = s.draws))

/-- R143 with R140: DEC accepts any of the four lengths for any value that fits, the shorter ones' values
included, and gives that value and the length consumed, at any offset (R55). -/
def Obligations.DecAcceptsEveryLength : Prop :=
  ∀ (rd ro ra : Reg) (s : State) (v : Nat), ∀ lp ∈ wireLengths,
    v < 2 ^ (8 * lp.1 - 2) → s.val ro + s.val ra ≤ s.cfg.wbufSize → lp.1 ≤ s.val ra →
    Holds s (s.val ro) (bigEndian (lp.2 * 2 ^ (8 * lp.1 - 2) + v) lp.1) →
      ∃ t, exec (.dec rd ro ra) s = .next t ∧ t.val rd = v ∧ SameRegsBut rd s t
        ∧ CodecStatus .ok lp.1 0 s t ∧ SameBytes s t ∧ SamePorts s t

/-- R56, R57: DEC of a region whose first byte nothing has written completes or reports, on a free byte drawn
for it, and draws no byte at or beyond the length that byte declares. The count of draws is the model's
(assumption 4). -/
def Obligations.DecOfUnwrittenBytesDraws : Prop :=
  ∀ (rd ro ra : Reg) (s : State), s.val ro + s.val ra ≤ s.cfg.wbufSize → 1 ≤ s.val ra →
    s.byteAt (s.val ro) = none →
      ∃ t, exec (.dec rd ro ra) s = .next t ∧ (∀ a, t.byteAt a = s.byteAt a) ∧ SamePorts s t
        ∧ SameRegsBut rd s t ∧ s.draws < t.draws
        ∧ t.draws ≤ s.draws + 2 ^ ((Config.freeByte s.draws).toNat / 64)
        ∧ (s.val ra < 2 ^ ((Config.freeByte s.draws).toNat / 64) →
            SameRegs s t ∧ t.draws = s.draws + 1
            ∧ CodecStatus .bufferTooSmall 0 (2 ^ ((Config.freeByte s.draws).toNat / 64)) s t)
        ∧ (2 ^ ((Config.freeByte s.draws).toNat / 64) ≤ s.val ra →
            CodecStatus .ok (2 ^ ((Config.freeByte s.draws).toNat / 64)) 0 s t
            ∧ t.val rd < 2 ^ (8 * 2 ^ ((Config.freeByte s.draws).toNat / 64) - 2))

/-- R58: DEC is idempotent. Run again with the same operands, on a region whose bytes are written, it leaves the
state the first run left. -/
def Obligations.DecIsIdempotent : Prop :=
  ∀ (rd ro ra : Reg) (s t : State), rd ≠ ro → rd ≠ ra →
    (∀ a, s.val ro ≤ a → a < s.val ro + s.val ra → s.byteAt a ≠ none) →
    exec (.dec rd ro ra) s = .next t → exec (.dec rd ro ra) t = .next t

/-- R146 with R53, R145 and R147: ENC of a value in range. It writes exactly the `L` bytes of the canonical
encoding, for the minimum class (R135), or it writes none. -/
def Obligations.EncEncodesItsValue : Prop :=
  ∀ (rv ro rc : Reg) (s : State),
    encode (.enc rv ro rc) = 0x21#8 ++ rv ++ ro ++ rc ++ 0#15
    ∧ (s.cfg.wbufSize < s.val ro + s.val rc →
        ∃ t, exec (.enc rv ro rc) s = .next t ∧ Faults .region s t)
    ∧ ∀ lp ∈ wireLengths, s.val rv < 2 ^ (8 * lp.1 - 2) →
        (∀ lq ∈ wireLengths, s.val rv < 2 ^ (8 * lq.1 - 2) → lp.1 ≤ lq.1) →
        s.val ro + s.val rc ≤ s.cfg.wbufSize →
          (s.val rc < lp.1 →
            ∃ t, exec (.enc rv ro rc) s = .next t ∧ ReportsCodec .bufferTooSmall 0 lp.1 s t)
          ∧ (lp.1 ≤ s.val rc →
            ∃ t, exec (.enc rv ro rc) s = .next t
              ∧ Holds t (s.val ro) (bigEndian (lp.2 * 2 ^ (8 * lp.1 - 2) + s.val rv) lp.1)
              ∧ (∀ a, (a < s.val ro ∨ s.val ro + lp.1 ≤ a) → t.byteAt a = s.byteAt a)
              ∧ t.draws = s.draws ∧ SameRegs s t ∧ CodecStatus .ok lp.1 0 s t ∧ SamePorts s t)

/-- R151: the round trip. ENC of any value in range, then any commands' worth of register changes that leave
WBUF alone, then DEC at the same offset with enough bytes, gives the value back with `LEN = elen`. -/
def Obligations.EncThenDecGivesTheValueBack : Prop :=
  ∀ (rv ro rc rd qo qa : Reg) (s t u : State),
    s.val rv ≤ 2 ^ 62 - 1 → s.val ro + s.val rc ≤ s.cfg.wbufSize → elen (s.val rv) ≤ s.val rc →
    exec (.enc rv ro rc) s = .next t →
    (∀ a, u.byteAt a = t.byteAt a) → u.cfg = t.cfg →
    u.val qo = s.val ro → elen (s.val rv) ≤ u.val qa → u.val qo + u.val qa ≤ u.cfg.wbufSize →
      ∃ w, exec (.dec rd qo qa) u = .next w ∧ w.val rd = s.val rv
        ∧ w.status.err = .ok ∧ w.status.len.toNat = elen (s.val rv)
        ∧ t.status.len.toNat = elen (s.val rv)

/-- R149: MFLEN. -/
def Obligations.MflenCopiesLen : Prop :=
  ∀ (rd : Reg) (s : State),
    encode (.mflen rd) = 0x22#8 ++ rd ++ 0#21
    ∧ ∃ t, exec (.mflen rd) s = .next t ∧ Moves rd s.status.len.toNat s t

/-- R150 with R28: MFST copies STATUS, each field in its place; on a block not faulted FAULT and FCAUSE read 0
there. -/
def Obligations.MfstCopiesStatus : Prop :=
  ∀ (rd : Reg) (s : State),
    encode (.mfst rd) = 0x23#8 ++ rd ++ 0#21
    ∧ ∃ t, exec (.mfst rd) s = .next t
        ∧ Moves rd (s.status.err.code.toNat + 2 ^ 4 * s.status.len.toNat + 2 ^ 8 * s.status.req.toNat
            + 2 ^ 12 * (if s.status.fault then 1 else 0) + 2 ^ 16 * s.status.fcause.code.toNat) s t
        ∧ (s.status.legal → s.status.fault = false → t.val rd < 2 ^ 12)

/-! ## Arithmetic (43_alu_arith.md) -/

/-- R161: ADD. -/
def Obligations.AddAddsOrRange : Prop :=
  ∀ (rd rs1 rs2 : Reg) (s : State),
    encode (.add rd rs1 rs2) = 0x30#8 ++ rd ++ rs1 ++ rs2 ++ 0#15
    ∧ (s.val rs1 + s.val rs2 ≤ 2 ^ 62 - 1 →
        ∃ t, exec (.add rd rs1 rs2) s = .next t ∧ Completes rd (s.val rs1 + s.val rs2) s t)
    ∧ (2 ^ 62 ≤ s.val rs1 + s.val rs2 →
        ∃ t, exec (.add rd rs1 rs2) s = .next t ∧ Faults .range s t)

/-- R162: SUB, from operands in range. -/
def Obligations.SubSubtractsOrOverflow : Prop :=
  ∀ (rd rs1 rs2 : Reg) (s : State),
    encode (.sub rd rs1 rs2) = 0x31#8 ++ rd ++ rs1 ++ rs2 ++ 0#15
    ∧ (s.val rs2 ≤ s.val rs1 → s.val rs1 ≤ 2 ^ 62 - 1 →
        ∃ t, exec (.sub rd rs1 rs2) s = .next t ∧ Completes rd (s.val rs1 - s.val rs2) s t)
    ∧ (s.val rs1 < s.val rs2 →
        ∃ t, exec (.sub rd rs1 rs2) s = .next t ∧ Faults .overflow s t)

/-- R163: MUL, its 64-bit check before Commit's. -/
def Obligations.MulMultipliesOrFaults : Prop :=
  ∀ (rd rs1 rs2 : Reg) (s : State),
    encode (.mul rd rs1 rs2) = 0x32#8 ++ rd ++ rs1 ++ rs2 ++ 0#15
    ∧ (s.val rs1 * s.val rs2 ≤ 2 ^ 62 - 1 →
        ∃ t, exec (.mul rd rs1 rs2) s = .next t ∧ Completes rd (s.val rs1 * s.val rs2) s t)
    ∧ (2 ^ 62 ≤ s.val rs1 * s.val rs2 → s.val rs1 * s.val rs2 < 2 ^ 64 →
        ∃ t, exec (.mul rd rs1 rs2) s = .next t ∧ Faults .range s t)
    ∧ (2 ^ 64 ≤ s.val rs1 * s.val rs2 →
        ∃ t, exec (.mul rd rs1 rs2) s = .next t ∧ Faults .overflow s t)

/-- R164, R165: DIV and REM, from operands in range: quotient q and remainder r with `a = b*q + r` and `r < b`
(R166), DIV_ZERO for a zero divisor. -/
def Obligations.DivRemDivideOrFault : Prop :=
  ∀ (rd rs1 rs2 : Reg) (s : State),
    encode (.div rd rs1 rs2) = 0x33#8 ++ rd ++ rs1 ++ rs2 ++ 0#15
    ∧ encode (.rem rd rs1 rs2) = 0x34#8 ++ rd ++ rs1 ++ rs2 ++ 0#15
    ∧ (s.val rs2 = 0 →
        (∃ t, exec (.div rd rs1 rs2) s = .next t ∧ Faults .divZero s t)
        ∧ ∃ t, exec (.rem rd rs1 rs2) s = .next t ∧ Faults .divZero s t)
    ∧ (s.val rs2 ≠ 0 → s.val rs1 ≤ 2 ^ 62 - 1 →
        ∃ q r : Nat, s.val rs1 = s.val rs2 * q + r ∧ r < s.val rs2
          ∧ (∃ t, exec (.div rd rs1 rs2) s = .next t ∧ Completes rd q s t)
          ∧ ∃ t, exec (.rem rd rs1 rs2) s = .next t ∧ Completes rd r s t)

/-- R166: ADD and MUL with their operands swapped give the same state, so the same result or the same fault;
and on operands in range a result that completes is the native unsigned 64-bit one, for SUB too. -/
def Obligations.ArithmeticLaws : Prop :=
  ∀ (rd rs1 rs2 : Reg) (s : State),
    exec (.add rd rs1 rs2) s = exec (.add rd rs2 rs1) s
    ∧ exec (.mul rd rs1 rs2) s = exec (.mul rd rs2 rs1) s
    ∧ ∀ t, ValuesInRange s → s.status.fault = false → t.status.fault = false →
        (exec (.add rd rs1 rs2) s = .next t → t.reg rd = s.reg rs1 + s.reg rs2)
        ∧ (exec (.sub rd rs1 rs2) s = .next t → t.reg rd = s.reg rs1 - s.reg rs2)
        ∧ (exec (.mul rd rs1 rs2) s = .next t → t.reg rd = s.reg rs1 * s.reg rs2)
        ∧ (exec (.div rd rs1 rs2) s = .next t → t.reg rd = s.reg rs1 / s.reg rs2)
        ∧ (exec (.rem rd rs1 rs2) s = .next t → t.reg rd = s.reg rs1 % s.reg rs2)

/-! ## Bitwise and shift (44_alu_bitwise.md) -/

/-- R171, R172, R173: AND, OR and XOR of operands in range: bit n of the result is the operation on the bits n
of the operands; they never fault. -/
def Obligations.LogicActsBitByBit : Prop :=
  ∀ (rd rs1 rs2 : Reg) (s : State),
    encode (.and rd rs1 rs2) = 0x38#8 ++ rd ++ rs1 ++ rs2 ++ 0#15
    ∧ encode (.or rd rs1 rs2) = 0x39#8 ++ rd ++ rs1 ++ rs2 ++ 0#15
    ∧ encode (.xor rd rs1 rs2) = 0x3A#8 ++ rd ++ rs1 ++ rs2 ++ 0#15
    ∧ (s.val rs1 ≤ 2 ^ 62 - 1 → s.val rs2 ≤ 2 ^ 62 - 1 →
        (∃ v t, exec (.and rd rs1 rs2) s = .next t ∧ Completes rd v s t
          ∧ ∀ n, v.testBit n = ((s.val rs1).testBit n && (s.val rs2).testBit n))
        ∧ (∃ v t, exec (.or rd rs1 rs2) s = .next t ∧ Completes rd v s t
          ∧ ∀ n, v.testBit n = ((s.val rs1).testBit n || (s.val rs2).testBit n))
        ∧ (∃ v t, exec (.xor rd rs1 rs2) s = .next t ∧ Completes rd v s t
          ∧ ∀ n, v.testBit n = ((s.val rs1).testBit n ^^ (s.val rs2).testBit n)))

/-- R174: NOT of an operand in range raises RANGE when NOT_WIDTH = 64 and gives `MAX - a` when it is 62. -/
def Obligations.NotComplementsAtItsWidth : Prop :=
  ∀ (rd rs1 : Reg) (s : State),
    encode (.not rd rs1) = 0x3B#8 ++ rd ++ rs1 ++ 0#18
    ∧ (s.val rs1 ≤ 2 ^ 62 - 1 →
        (s.cfg.notWidth = .w64 → ∃ t, exec (.not rd rs1) s = .next t ∧ Faults .range s t)
        ∧ (s.cfg.notWidth = .w62 →
            ∃ t, exec (.not rd rs1) s = .next t ∧ Completes rd (2 ^ 62 - 1 - s.val rs1) s t))

/-- R175: SHL: 0 from an amount of 64 on, else the low 64 bits of `a * 2^n`, which bits 62 and 63 keep from
being committed. -/
def Obligations.ShlShiftsOrRange : Prop :=
  ∀ (rd rs1 rs2 : Reg) (s : State),
    encode (.shl rd rs1 rs2) = 0x3C#8 ++ rd ++ rs1 ++ rs2 ++ 0#15
    ∧ (64 ≤ s.val rs2 → ∃ t, exec (.shl rd rs1 rs2) s = .next t ∧ Completes rd 0 s t)
    ∧ (s.val rs2 < 64 →
        let r : Word := s.reg rs1 <<< s.val rs2
        (r.getLsbD 62 = false ∧ r.getLsbD 63 = false →
          ∃ t, exec (.shl rd rs1 rs2) s = .next t ∧ Completes rd r.toNat s t)
        ∧ (r.getLsbD 62 = true ∨ r.getLsbD 63 = true →
          ∃ t, exec (.shl rd rs1 rs2) s = .next t ∧ Faults .range s t))

/-- R176: SHR of a value in range: zero-filling, 0 from an amount of 62 on; it never faults. -/
def Obligations.ShrShiftsWithZeroFill : Prop :=
  ∀ (rd rs1 rs2 : Reg) (s : State),
    encode (.shr rd rs1 rs2) = 0x3D#8 ++ rd ++ rs1 ++ rs2 ++ 0#15
    ∧ (s.val rs1 ≤ 2 ^ 62 - 1 →
        ∃ t, exec (.shr rd rs1 rs2) s = .next t ∧ Completes rd (s.reg rs1 >>> s.val rs2).toNat s t
          ∧ (62 ≤ s.val rs2 → t.val rd = 0))

/-! ## Comparison (45_alu_compare.md) -/

/-- R180 to R186: each comparison writes 1 if its relation holds of the two values and 0 if it does not; it
never faults. -/
def Obligations.ComparisonsWriteTheTruthValue : Prop :=
  ∀ (rd rs1 rs2 : Reg) (s : State),
    encode (.eq rd rs1 rs2) = 0x40#8 ++ rd ++ rs1 ++ rs2 ++ 0#15
    ∧ encode (.ne rd rs1 rs2) = 0x41#8 ++ rd ++ rs1 ++ rs2 ++ 0#15
    ∧ encode (.lt rd rs1 rs2) = 0x42#8 ++ rd ++ rs1 ++ rs2 ++ 0#15
    ∧ encode (.le rd rs1 rs2) = 0x43#8 ++ rd ++ rs1 ++ rs2 ++ 0#15
    ∧ encode (.gt rd rs1 rs2) = 0x44#8 ++ rd ++ rs1 ++ rs2 ++ 0#15
    ∧ encode (.ge rd rs1 rs2) = 0x45#8 ++ rd ++ rs1 ++ rs2 ++ 0#15
    ∧ (∃ t, exec (.eq rd rs1 rs2) s = .next t
        ∧ Completes rd (if s.val rs1 = s.val rs2 then 1 else 0) s t)
    ∧ (∃ t, exec (.ne rd rs1 rs2) s = .next t
        ∧ Completes rd (if s.val rs1 ≠ s.val rs2 then 1 else 0) s t)
    ∧ (∃ t, exec (.lt rd rs1 rs2) s = .next t
        ∧ Completes rd (if s.val rs1 < s.val rs2 then 1 else 0) s t)
    ∧ (∃ t, exec (.le rd rs1 rs2) s = .next t
        ∧ Completes rd (if s.val rs1 ≤ s.val rs2 then 1 else 0) s t)
    ∧ (∃ t, exec (.gt rd rs1 rs2) s = .next t
        ∧ Completes rd (if s.val rs1 > s.val rs2 then 1 else 0) s t)
    ∧ (∃ t, exec (.ge rd rs1 rs2) s = .next t
        ∧ Completes rd (if s.val rs1 ≥ s.val rs2 then 1 else 0) s t)

/-- R187: exactly one of LT, EQ and GT gives 1; LE, GE and NE are 1 less GT, LT and EQ; and the order is that of
the values as unsigned integers, LT, EQ and GT each giving 1 where its own relation holds, so LT is transitive. -/
def Obligations.ComparisonsAreATotalOrder : Prop :=
  ∀ (rd rs1 rs2 : Reg) (s : State),
    ∃ e n l m g h : State,
      exec (.eq rd rs1 rs2) s = .next e ∧ exec (.ne rd rs1 rs2) s = .next n
      ∧ exec (.lt rd rs1 rs2) s = .next l ∧ exec (.le rd rs1 rs2) s = .next m
      ∧ exec (.gt rd rs1 rs2) s = .next g ∧ exec (.ge rd rs1 rs2) s = .next h
      ∧ l.val rd + e.val rd + g.val rd = 1
      ∧ m.val rd + g.val rd = 1 ∧ h.val rd + l.val rd = 1 ∧ n.val rd + e.val rd = 1
      ∧ (l.val rd = 1 ↔ s.val rs1 < s.val rs2) ∧ (e.val rd = 1 ↔ s.val rs1 = s.val rs2)
      ∧ (g.val rd = 1 ↔ s.val rs2 < s.val rs1)
      ∧ ∀ (rs3 : Reg) (p : State), exec (.lt rd rs2 rs3) s = .next p → l.val rd = 1 → p.val rd = 1 →
          ∃ q, exec (.lt rd rs1 rs3) s = .next q ∧ q.val rd = 1

/-! ## The assembler (30_encoding.md R81, R83) -/

/-- R83: the assembler refuses a wrong operand count, a register name outside V0 to V7 and an immediate outside
0 to 65535; what it accepts carries the numbers as written. -/
def Obligations.AssemblerRefusesWhatItMust : Prop :=
  (∀ (f : Form) (os : List AsmOperand), os.length ≠ formArity f → ∃ e, assembleForm f os = .error e)
  ∧ (∀ (f : Form) (os : List AsmOperand) (n : Nat), .reg n ∈ os → 7 < n →
      ∃ e, assembleForm f os = .error e)
  ∧ (∀ (f : Form) (os : List AsmOperand) (n : Nat), .imm n ∈ os → 65535 < n →
      ∃ e, assembleForm f os = .error e)
  ∧ ∀ (d a b n : Nat), d ≤ 7 → a ≤ 7 → b ≤ 7 → n ≤ 65535 →
      (∃ w x y : Reg, w.toNat = d ∧ x.toNat = a ∧ y.toNat = b
        ∧ (∀ mk, assembleForm (.r3 mk) [.reg d, .reg a, .reg b] = .ok (mk w x y))
        ∧ (∀ mk, assembleForm (.r2 mk) [.reg d, .reg a] = .ok (mk w x))
        ∧ (∀ mk, assembleForm (.r1 mk) [.reg d] = .ok (mk w))
        ∧ ∃ v : BitVec 16, v.toNat = n
          ∧ ∀ mk, assembleForm (.imm mk) [.reg d, .imm n] = .ok (mk w v))

/-- R83: the one-command expansions of the pseudo-instructions, and that they do what they are named for, on
values in range: MOV copies, CLR and LDMIN give 0, NOT62 gives the 62-bit complement whatever NOT_WIDTH is. -/
def Obligations.PseudoInstructionsDoAsNamed : Prop :=
  formOf "MOV".toList = some (.r2 fun d a => .or d a a)
  ∧ formOf "CLR".toList = some (.r1 fun d => .ldi d 0)
  ∧ formOf "LDMIN".toList = some (.r1 fun d => .ldi d 0)
  ∧ formOf "NOT62".toList = some (.r3 fun d a m => .xor d a m)
  ∧ ∀ (d a m : Reg) (s : State), s.val a ≤ 2 ^ 62 - 1 →
    (∃ t, exec (.or d a a) s = .next t ∧ Completes d (s.val a) s t)
    ∧ (∃ t, exec (.ldi d 0) s = .next t ∧ Completes d 0 s t)
    ∧ (s.val m = 2 ^ 62 - 1 →
        ∃ t, exec (.xor d a m) s = .next t ∧ Completes d (2 ^ 62 - 1 - s.val a) s t)
end

