-- ==== Sys2Proof/Laws/Encoding.lean ====
section
/-! SUPPORT. The layouts as numbers, the fields read back from each of them, and their fixed bits. -/

namespace Sys2Proof

/-! ### The layouts as numbers (30_encoding.md R72, R73) -/

theorem encodeR3_toNat (op : BitVec 8) (rd rs1 rs2 : Reg) :
    (encodeR3 op rd rs1 rs2).toNat
      = op.toNat * 2 ^ 24 + rd.toNat * 2 ^ 21 + rs1.toNat * 2 ^ 18 + rs2.toNat * 2 ^ 15 := by
  have := rd.isLt
  have := rs1.isLt
  have := rs2.isLt
  simp only [encodeR3, BitVec.toNat_append]
  rw [← Nat.shiftLeft_add_eq_or_of_lt (by simp), ← Nat.shiftLeft_add_eq_or_of_lt (by omega),
    ← Nat.shiftLeft_add_eq_or_of_lt (by omega), ← Nat.shiftLeft_add_eq_or_of_lt (by omega)]
  simp only [Nat.shiftLeft_eq, BitVec.toNat_ofNat]
  omega

theorem encodeR2_toNat (op : BitVec 8) (rd rs1 : Reg) :
    (encodeR2 op rd rs1).toNat = op.toNat * 2 ^ 24 + rd.toNat * 2 ^ 21 + rs1.toNat * 2 ^ 18 := by
  have := rd.isLt
  have := rs1.isLt
  simp only [encodeR2, BitVec.toNat_append]
  rw [← Nat.shiftLeft_add_eq_or_of_lt (by simp), ← Nat.shiftLeft_add_eq_or_of_lt (by omega),
    ← Nat.shiftLeft_add_eq_or_of_lt (by omega)]
  simp only [Nat.shiftLeft_eq, BitVec.toNat_ofNat]
  omega

theorem encodeR1_toNat (op : BitVec 8) (rd : Reg) :
    (encodeR1 op rd).toNat = op.toNat * 2 ^ 24 + rd.toNat * 2 ^ 21 := by
  have := rd.isLt
  simp only [encodeR1, BitVec.toNat_append]
  rw [← Nat.shiftLeft_add_eq_or_of_lt (by simp), ← Nat.shiftLeft_add_eq_or_of_lt (by omega)]
  simp only [Nat.shiftLeft_eq, BitVec.toNat_ofNat]
  omega

theorem encodeI_toNat (op : BitVec 8) (rd : Reg) (imm : BitVec 16) :
    (encodeI op rd imm).toNat = op.toNat * 2 ^ 24 + rd.toNat * 2 ^ 21 + imm.toNat := by
  have := rd.isLt
  have := imm.isLt
  simp only [encodeI, BitVec.toNat_append]
  rw [← Nat.shiftLeft_add_eq_or_of_lt (by omega), ← Nat.shiftLeft_add_eq_or_of_lt (by simp),
    ← Nat.shiftLeft_add_eq_or_of_lt (by omega)]
  simp only [Nat.shiftLeft_eq, BitVec.toNat_ofNat]
  omega

/-! ### The fields as numbers -/

theorem opField_toNat (c : Command) : (opField c).toNat = c.toNat / 2 ^ 24 := by
  have := c.isLt
  simp [opField, BitVec.extractLsb', Nat.shiftRight_eq_div_pow]
  omega

theorem rdField_toNat (c : Command) : (rdField c).toNat = c.toNat / 2 ^ 21 % 8 := by
  simp [rdField, BitVec.extractLsb', Nat.shiftRight_eq_div_pow]

theorem rs1Field_toNat (c : Command) : (rs1Field c).toNat = c.toNat / 2 ^ 18 % 8 := by
  simp [rs1Field, BitVec.extractLsb', Nat.shiftRight_eq_div_pow]

theorem rs2Field_toNat (c : Command) : (rs2Field c).toNat = c.toNat / 2 ^ 15 % 8 := by
  simp [rs2Field, BitVec.extractLsb', Nat.shiftRight_eq_div_pow]

theorem immField_toNat (c : Command) : (immField c).toNat = c.toNat % 2 ^ 16 := by
  simp [immField, BitVec.extractLsb']

/-! ### The fields of each layout -/

theorem encodeR3_fields (op : BitVec 8) (rd rs1 rs2 : Reg) :
    opField (encodeR3 op rd rs1 rs2) = op ∧ rdField (encodeR3 op rd rs1 rs2) = rd
      ∧ rs1Field (encodeR3 op rd rs1 rs2) = rs1 ∧ rs2Field (encodeR3 op rd rs1 rs2) = rs2 := by
  have := op.isLt
  have := rd.isLt
  have := rs1.isLt
  have := rs2.isLt
  refine ⟨?_, ?_, ?_, ?_⟩ <;> apply BitVec.eq_of_toNat_eq <;>
    simp only [opField_toNat, rdField_toNat, rs1Field_toNat, rs2Field_toNat, encodeR3_toNat] <;> omega

theorem encodeR2_fields (op : BitVec 8) (rd rs1 : Reg) :
    opField (encodeR2 op rd rs1) = op ∧ rdField (encodeR2 op rd rs1) = rd
      ∧ rs1Field (encodeR2 op rd rs1) = rs1 := by
  have := op.isLt
  have := rd.isLt
  have := rs1.isLt
  refine ⟨?_, ?_, ?_⟩ <;> apply BitVec.eq_of_toNat_eq <;>
    simp only [opField_toNat, rdField_toNat, rs1Field_toNat, encodeR2_toNat] <;> omega

theorem encodeR1_fields (op : BitVec 8) (rd : Reg) :
    opField (encodeR1 op rd) = op ∧ rdField (encodeR1 op rd) = rd := by
  have := op.isLt
  have := rd.isLt
  refine ⟨?_, ?_⟩ <;> apply BitVec.eq_of_toNat_eq <;>
    simp only [opField_toNat, rdField_toNat, encodeR1_toNat] <;> omega

theorem encodeI_fields (op : BitVec 8) (rd : Reg) (imm : BitVec 16) :
    opField (encodeI op rd imm) = op ∧ rdField (encodeI op rd imm) = rd
      ∧ immField (encodeI op rd imm) = imm := by
  have := op.isLt
  have := rd.isLt
  have := imm.isLt
  refine ⟨?_, ?_, ?_⟩ <;> apply BitVec.eq_of_toNat_eq <;>
    simp only [opField_toNat, rdField_toNat, immField_toNat, encodeI_toNat] <;> omega

/-! ### Fixed bits -/

theorem encodeR3_mask (op : BitVec 8) (rd rs1 rs2 : Reg) :
    encodeR3 op rd rs1 rs2 &&& 0xFF007FFF#32 = op ++ 0#24 := by
  have hm : 0xFF007FFF#32 = 0xFF#8 ++ 0#3 ++ 0#3 ++ 0#3 ++ 0x7FFF#15 := by decide
  have hop : op &&& 0xFF#8 = op := BitVec.and_allOnes
  have hr : (op ++ 0#24 : Command) = op ++ 0#3 ++ 0#3 ++ 0#3 ++ 0#15 := by
    revert op; decide
  rw [hm, encodeR3, BitVec.and_append, BitVec.and_append, BitVec.and_append, BitVec.and_append, hop]
  simpa using hr.symm

theorem encodeR2_mask (op : BitVec 8) (rd rs1 : Reg) :
    encodeR2 op rd rs1 &&& 0xFF03FFFF#32 = op ++ 0#24 := by
  have hm : 0xFF03FFFF#32 = 0xFF#8 ++ 0#3 ++ 0#3 ++ 0x3FFFF#18 := by decide
  have hop : op &&& 0xFF#8 = op := BitVec.and_allOnes
  have hr : (op ++ 0#24 : Command) = op ++ 0#3 ++ 0#3 ++ 0#18 := by
    revert op; decide
  rw [hm, encodeR2, BitVec.and_append, BitVec.and_append, BitVec.and_append, hop]
  simpa using hr.symm

theorem encodeR1_mask (op : BitVec 8) (rd : Reg) :
    encodeR1 op rd &&& 0xFF1FFFFF#32 = op ++ 0#24 := by
  have hm : 0xFF1FFFFF#32 = 0xFF#8 ++ 0#3 ++ 0x1FFFFF#21 := by decide
  have hop : op &&& 0xFF#8 = op := BitVec.and_allOnes
  have hr : (op ++ 0#24 : Command) = op ++ 0#3 ++ 0#21 := by
    revert op; decide
  rw [hm, encodeR1, BitVec.and_append, BitVec.and_append, hop]
  simpa using hr.symm

theorem encodeI_mask (op : BitVec 8) (rd : Reg) (imm : BitVec 16) :
    encodeI op rd imm &&& 0xFF1F0000#32 = op ++ 0#24 := by
  have hm : 0xFF1F0000#32 = 0xFF#8 ++ 0#3 ++ 0x1F#5 ++ 0#16 := by decide
  have hop : op &&& 0xFF#8 = op := BitVec.and_allOnes
  have hr : (op ++ 0#24 : Command) = op ++ 0#3 ++ 0#5 ++ 0#16 := by
    revert op; decide
  rw [hm, encodeI, BitVec.and_append, BitVec.and_append, BitVec.and_append, hop]
  simpa using hr.symm

end Sys2Proof
end

