-- ==== Sys2Proof/Laws/State.lean ====
section
/-! SUPPORT. One lemma per field per update of the state. -/

namespace Sys2Proof.Machine

/-! ### setReg -/

@[simp] theorem State.setReg_regs (s : State) (r : Reg) (w : Word) :
    (s.setReg r w).regs = s.regs.set r.toNat w r.isLt := rfl

@[simp] theorem State.setReg_din (s : State) (r : Reg) (w : Word) :
    (s.setReg r w).din = s.din := rfl

@[simp] theorem State.setReg_status (s : State) (r : Reg) (w : Word) :
    (s.setReg r w).status = s.status := rfl

@[simp] theorem State.setReg_wbuf (s : State) (r : Reg) (w : Word) :
    (s.setReg r w).wbuf = s.wbuf := rfl

@[simp] theorem State.setReg_cfg (s : State) (r : Reg) (w : Word) :
    (s.setReg r w).cfg = s.cfg := rfl

@[simp] theorem State.setReg_pending (s : State) (r : Reg) (w : Word) :
    (s.setReg r w).pending = s.pending := rfl

@[simp] theorem State.setReg_resp (s : State) (r : Reg) (w : Word) :
    (s.setReg r w).resp = s.resp := rfl

@[simp] theorem State.setReg_draws (s : State) (r : Reg) (w : Word) :
    (s.setReg r w).draws = s.draws := rfl

/-! ### setErr -/

@[simp] theorem State.setErr_regs (s : State) (e : ErrCode) :
    (s.setErr e).regs = s.regs := rfl

@[simp] theorem State.setErr_din (s : State) (e : ErrCode) :
    (s.setErr e).din = s.din := rfl

@[simp] theorem State.setErr_status (s : State) (e : ErrCode) :
    (s.setErr e).status = { s.status with err := e } := rfl

@[simp] theorem State.setErr_wbuf (s : State) (e : ErrCode) :
    (s.setErr e).wbuf = s.wbuf := rfl

@[simp] theorem State.setErr_cfg (s : State) (e : ErrCode) :
    (s.setErr e).cfg = s.cfg := rfl

@[simp] theorem State.setErr_pending (s : State) (e : ErrCode) :
    (s.setErr e).pending = s.pending := rfl

@[simp] theorem State.setErr_resp (s : State) (e : ErrCode) :
    (s.setErr e).resp = s.resp := rfl

@[simp] theorem State.setErr_draws (s : State) (e : ErrCode) :
    (s.setErr e).draws = s.draws := rfl

/-! ### setCodec -/

@[simp] theorem State.setCodec_regs (s : State) (e : ErrCode) (l r : Nat) :
    (s.setCodec e l r).regs = s.regs := rfl

@[simp] theorem State.setCodec_din (s : State) (e : ErrCode) (l r : Nat) :
    (s.setCodec e l r).din = s.din := rfl

@[simp] theorem State.setCodec_status (s : State) (e : ErrCode) (l r : Nat) :
    (s.setCodec e l r).status = { s.status with err := e, len := BitVec.ofNat 4 l, req := BitVec.ofNat 4 r } := rfl

@[simp] theorem State.setCodec_wbuf (s : State) (e : ErrCode) (l r : Nat) :
    (s.setCodec e l r).wbuf = s.wbuf := rfl

@[simp] theorem State.setCodec_cfg (s : State) (e : ErrCode) (l r : Nat) :
    (s.setCodec e l r).cfg = s.cfg := rfl

@[simp] theorem State.setCodec_pending (s : State) (e : ErrCode) (l r : Nat) :
    (s.setCodec e l r).pending = s.pending := rfl

@[simp] theorem State.setCodec_resp (s : State) (e : ErrCode) (l r : Nat) :
    (s.setCodec e l r).resp = s.resp := rfl

@[simp] theorem State.setCodec_draws (s : State) (e : ErrCode) (l r : Nat) :
    (s.setCodec e l r).draws = s.draws := rfl

/-! ### writeByte -/

@[simp] theorem State.writeByte_regs (s : State) (a : Nat) (b : Byte) :
    (s.writeByte a b).regs = s.regs := rfl

@[simp] theorem State.writeByte_din (s : State) (a : Nat) (b : Byte) :
    (s.writeByte a b).din = s.din := rfl

@[simp] theorem State.writeByte_status (s : State) (a : Nat) (b : Byte) :
    (s.writeByte a b).status = s.status := rfl

@[simp] theorem State.writeByte_wbuf (s : State) (a : Nat) (b : Byte) :
    (s.writeByte a b).wbuf = writeCell s.wbuf a b := rfl

@[simp] theorem State.writeByte_cfg (s : State) (a : Nat) (b : Byte) :
    (s.writeByte a b).cfg = s.cfg := rfl

@[simp] theorem State.writeByte_pending (s : State) (a : Nat) (b : Byte) :
    (s.writeByte a b).pending = s.pending := rfl

@[simp] theorem State.writeByte_resp (s : State) (a : Nat) (b : Byte) :
    (s.writeByte a b).resp = s.resp := rfl

@[simp] theorem State.writeByte_draws (s : State) (a : Nat) (b : Byte) :
    (s.writeByte a b).draws = s.draws := rfl

/-! ### accept -/

@[simp] theorem State.accept_regs (s : State) (rest : List HostOp) :
    (s.accept rest).regs = s.regs := rfl

@[simp] theorem State.accept_din (s : State) (rest : List HostOp) :
    (s.accept rest).din = s.din := rfl

@[simp] theorem State.accept_status (s : State) (rest : List HostOp) :
    (s.accept rest).status = s.status := rfl

@[simp] theorem State.accept_wbuf (s : State) (rest : List HostOp) :
    (s.accept rest).wbuf = s.wbuf := rfl

@[simp] theorem State.accept_cfg (s : State) (rest : List HostOp) :
    (s.accept rest).cfg = s.cfg := rfl

@[simp] theorem State.accept_pending (s : State) (rest : List HostOp) :
    (s.accept rest).pending = rest := rfl

@[simp] theorem State.accept_resp (s : State) (rest : List HostOp) :
    (s.accept rest).resp = none := rfl

@[simp] theorem State.accept_draws (s : State) (rest : List HostOp) :
    (s.accept rest).draws = s.draws := rfl

/-! ### applyReset -/

@[simp] theorem applyReset_regs (s : State) : (applyReset s).regs = State.reset.regs := rfl

@[simp] theorem applyReset_din (s : State) : (applyReset s).din = State.reset.din := rfl

@[simp] theorem applyReset_status (s : State) : (applyReset s).status = State.reset.status := rfl

@[simp] theorem applyReset_wbuf (s : State) : (applyReset s).wbuf = State.reset.wbuf := rfl

@[simp] theorem applyReset_cfg (s : State) : (applyReset s).cfg = s.cfg := rfl

@[simp] theorem applyReset_pending (s : State) : (applyReset s).pending = s.pending := rfl

@[simp] theorem applyReset_resp (s : State) : (applyReset s).resp = State.reset.resp := rfl

@[simp] theorem applyReset_draws (s : State) : (applyReset s).draws = s.draws := rfl

/-! ### Registers -/

theorem State.reg_eq (s : State) (r : Reg) : s.reg r = s.regs[r.toNat]'r.isLt := rfl

@[simp] theorem State.setReg_reg_self (s : State) (r : Reg) (w : Word) : (s.setReg r w).reg r = w := by
  simp [State.reg_eq]

theorem State.setReg_reg_of_ne (s : State) (r q : Reg) (w : Word) (h : q ≠ r) :
    (s.setReg r w).reg q = s.reg q := by
  have hne : r.toNat ≠ q.toNat := fun e => h (BitVec.eq_of_toNat_eq e.symm)
  simp [State.reg_eq, hne]

@[simp] theorem State.setErr_reg (s : State) (e : ErrCode) (q : Reg) :
    (s.setErr e).reg q = s.reg q := rfl

@[simp] theorem State.setErr_val (s : State) (e : ErrCode) (q : Reg) :
    (s.setErr e).val q = s.val q := rfl

@[simp] theorem State.setCodec_reg (s : State) (e : ErrCode) (l r : Nat) (q : Reg) :
    (s.setCodec e l r).reg q = s.reg q := rfl

@[simp] theorem State.setCodec_val (s : State) (e : ErrCode) (l r : Nat) (q : Reg) :
    (s.setCodec e l r).val q = s.val q := rfl

@[simp] theorem State.writeByte_reg (s : State) (a : Nat) (b : Byte) (q : Reg) :
    (s.writeByte a b).reg q = s.reg q := rfl

@[simp] theorem State.writeByte_val (s : State) (a : Nat) (b : Byte) (q : Reg) :
    (s.writeByte a b).val q = s.val q := rfl

@[simp] theorem State.accept_reg (s : State) (rest : List HostOp) (q : Reg) :
    (s.accept rest).reg q = s.reg q := rfl

@[simp] theorem State.accept_val (s : State) (rest : List HostOp) (q : Reg) :
    (s.accept rest).val q = s.val q := rfl

@[simp] theorem State.setReg_byteAt (s : State) (r : Reg) (w : Word) (k : Nat) :
    (s.setReg r w).byteAt k = s.byteAt k := rfl

@[simp] theorem State.setErr_byteAt (s : State) (e : ErrCode) (k : Nat) :
    (s.setErr e).byteAt k = s.byteAt k := rfl

@[simp] theorem State.setCodec_byteAt (s : State) (e : ErrCode) (l r : Nat) (k : Nat) :
    (s.setCodec e l r).byteAt k = s.byteAt k := rfl

@[simp] theorem State.accept_byteAt (s : State) (rest : List HostOp) (k : Nat) :
    (s.accept rest).byteAt k = s.byteAt k := rfl

end Sys2Proof.Machine
end

