-- ==== Sys2Proof/Laws/Memory.lean ====
section
/-! SUPPORT. WBUF: read after write, and the canonical form that every write keeps. -/

namespace Sys2Proof.Machine

/-- Read after write (20_memory.md R56, R62). -/
theorem readCell_writeCell (m : Memory) (a k : Nat) (b : Byte) :
    readCell (writeCell m a b) k = if a = k then some b else readCell m k := by
  induction m with
  | nil => simp [writeCell, readCell]
  | cons x m ih =>
    obtain ⟨j, c⟩ := x
    simp only [writeCell]
    by_cases h1 : a < j
    · simp [h1, readCell]
    · by_cases h2 : a = j
      · subst h2
        by_cases hk : a = k <;> simp [readCell, hk]
      · by_cases hk : j = k
        · subst hk
          simp [h1, h2, readCell]
        · simp [h1, h2, hk, readCell, ih]

@[simp] theorem readCell_writeCell_self (m : Memory) (a : Nat) (b : Byte) :
    readCell (writeCell m a b) a = some b := by simp [readCell_writeCell]

theorem readCell_writeCell_of_ne (m : Memory) (a k : Nat) (b : Byte) (h : a ≠ k) :
    readCell (writeCell m a b) k = readCell m k := by simp [readCell_writeCell, h]

theorem State.writeByte_byteAt (s : State) (a k : Nat) (b : Byte) :
    (s.writeByte a b).byteAt k = if a = k then some b else s.byteAt k :=
  readCell_writeCell s.wbuf a k b

/-- Every address of the memory after a write is the one written or an old one. -/
theorem mem_writeCell {m : Memory} {a : Nat} {b : Byte} {c : Host.Cell} (h : c ∈ writeCell m a b) :
    c = (a, b) ∨ c ∈ m := by
  induction m with
  | nil => simpa [writeCell] using h
  | cons x m ih =>
    obtain ⟨j, d⟩ := x
    simp only [writeCell] at h
    split_ifs at h with h1 h2
    · simpa using h
    · rcases List.mem_cons.mp h with h | h
      · exact .inl h
      · exact .inr (List.mem_cons_of_mem _ h)
    · rcases List.mem_cons.mp h with h | h
      · exact .inr (h ▸ List.mem_cons_self)
      · exact (ih h).imp id (List.mem_cons_of_mem _)

/-- A write keeps the addresses strictly rising. -/
theorem writeCell_sorted {m : Memory} (a : Nat) (b : Byte) (h : m.Pairwise (fun x y => x.1 < y.1)) :
    (writeCell m a b).Pairwise (fun x y => x.1 < y.1) := by
  induction m with
  | nil => simp [writeCell]
  | cons x m ih =>
    obtain ⟨j, d⟩ := x
    obtain ⟨hj, hm⟩ := List.pairwise_cons.mp h
    simp only [writeCell]
    split_ifs with h1 h2
    · refine List.pairwise_cons.mpr ⟨fun y hy => ?_, h⟩
      rcases List.mem_cons.mp hy with rfl | hy
      · exact h1
      · exact h1.trans (hj y hy)
    · exact List.pairwise_cons.mpr ⟨fun y hy => h2 ▸ hj y hy, hm⟩
    · refine List.pairwise_cons.mpr ⟨fun y hy => ?_, ih hm⟩
      rcases mem_writeCell hy with rfl | hy
      · exact lt_of_le_of_ne (Nat.le_of_not_lt h1) (Ne.symm h2)
      · exact hj y hy

/-- A write below the buffer's size keeps the canonical form. -/
theorem writeCell_wf {size : Nat} {m : Memory} {a : Nat} (b : Byte) (ha : a < size)
    (h : Memory.wf size m) : Memory.wf size (writeCell m a b) :=
  ⟨writeCell_sorted a b h.1, fun c hc => by
    rcases mem_writeCell hc with rfl | hc
    · exact ha
    · exact h.2 c hc⟩

theorem writeByte_wf {s : State} {a : Nat} (b : Byte) (ha : a < s.cfg.wbufSize)
    (h : Memory.wf s.cfg.wbufSize s.wbuf) :
    Memory.wf (s.writeByte a b).cfg.wbufSize (s.writeByte a b).wbuf :=
  writeCell_wf b ha h

/-- The memory after reset has the canonical form. -/
theorem reset_wbuf_wf : Memory.wf State.reset.cfg.wbufSize State.reset.wbuf :=
  ⟨List.Pairwise.nil, fun _ h => absurd h List.not_mem_nil⟩

/-! ### Writing several bytes -/

/-- `MemWrite` changes WBUF and nothing else. -/
theorem writeBytes_frame (s : State) (a : Nat) (bs : List Byte) :
    (s.writeBytes a bs).regs = s.regs ∧ (s.writeBytes a bs).din = s.din
      ∧ (s.writeBytes a bs).status = s.status ∧ (s.writeBytes a bs).cfg = s.cfg
      ∧ (s.writeBytes a bs).pending = s.pending ∧ (s.writeBytes a bs).resp = s.resp
      ∧ (s.writeBytes a bs).draws = s.draws := by
  induction bs generalizing s a with
  | nil => simp [State.writeBytes]
  | cons b bs ih => simpa [State.writeBytes] using ih (s.writeByte a b) (a + 1)

theorem writeBytes_reg (s : State) (a : Nat) (bs : List Byte) (r : Reg) :
    (s.writeBytes a bs).reg r = s.reg r := by
  simp [State.reg_eq, (writeBytes_frame s a bs).1]

/-- What each byte reads as after `MemWrite(a, n, bs)`: byte i of the list at address `a + i`, every other
address as before (20_memory.md R52). -/
theorem writeBytes_byteAt (s : State) (a : Nat) (bs : List Byte) (k : Nat) :
    (s.writeBytes a bs).byteAt k
      = if h : a ≤ k ∧ k - a < bs.length then some (bs[k - a]'h.2) else s.byteAt k := by
  induction bs generalizing s a with
  | nil => simp [State.writeBytes]
  | cons b bs ih =>
    rw [State.writeBytes, ih, State.writeByte_byteAt]
    rcases Nat.lt_trichotomy k a with h | h | h
    · have h1 : ¬ (a + 1 ≤ k ∧ k - (a + 1) < bs.length) := by omega
      have h2 : ¬ (a ≤ k ∧ k - a < (b :: bs).length) := by omega
      rw [dif_neg h1, dif_neg h2, if_neg (by omega)]
    · subst h
      simp
    · obtain ⟨d, rfl⟩ : ∃ d, k = a + 1 + d := ⟨k - (a + 1), by omega⟩
      have e1 : a + 1 + d - (a + 1) = d := by omega
      have e2 : a + 1 + d - a = d + 1 := by omega
      by_cases hd : d < bs.length
      · rw [dif_pos (by omega), dif_pos (by simp; omega)]
        simp [e1, e2]
      · rw [dif_neg (by omega), dif_neg (by simp; omega), if_neg (by omega)]

theorem writeBytes_wf {s : State} {a : Nat} (bs : List Byte) (ha : a + bs.length ≤ s.cfg.wbufSize)
    (h : Memory.wf s.cfg.wbufSize s.wbuf) :
    Memory.wf s.cfg.wbufSize (s.writeBytes a bs).wbuf := by
  induction bs generalizing s a with
  | nil => exact h
  | cons b bs ih =>
    have hlt : a < s.cfg.wbufSize := by simp only [List.length_cons] at ha; omega
    have hle : a + 1 + bs.length ≤ (s.writeByte a b).cfg.wbufSize := by
      simp only [List.length_cons] at ha; simp only [State.writeByte_cfg]; omega
    exact ih (s := s.writeByte a b) hle (writeByte_wf b hlt h)

/-! ### Reading -/

/-- A read gives the written byte and changes nothing, or draws and counts the draw (20_memory.md R56). -/
theorem readByte_cases (s : State) (a : Nat) :
    (∃ b, s.byteAt a = some b ∧ s.readByte a = (b, s))
    ∨ (s.byteAt a = none ∧ s.readByte a = (unwrittenByte s.draws, { s with draws := s.draws + 1 })) := by
  unfold State.readByte
  cases h : s.byteAt a with
  | some b => exact .inl ⟨b, rfl, rfl⟩
  | none => exact .inr ⟨rfl, rfl⟩

theorem readByte_written {s : State} {a : Nat} {b : Byte} (h : s.byteAt a = some b) :
    s.readByte a = (b, s) := by simp [State.readByte, h]

theorem readByte_unwritten {s : State} {a : Nat} (h : s.byteAt a = none) :
    s.readByte a = (unwrittenByte s.draws, { s with draws := s.draws + 1 }) := by
  simp [State.readByte, h]

/-- A read changes at most the draw counter. -/
theorem readByte_state (s : State) (a : Nat) : ∃ n, (s.readByte a).2 = { s with draws := n } := by
  rcases readByte_cases s a with ⟨b, -, h⟩ | ⟨-, h⟩
  · exact ⟨s.draws, by rw [h]⟩
  · exact ⟨s.draws + 1, by rw [h]⟩

/-- `MemRead` changes at most the draw counter. -/
theorem readBytes_state (s : State) (a n : Nat) : ∃ k, (s.readBytes a n).2 = { s with draws := k } := by
  induction n generalizing s a with
  | zero => exact ⟨s.draws, rfl⟩
  | succ n ih =>
    obtain ⟨k, hk⟩ := readByte_state s a
    obtain ⟨j, hj⟩ := ih { s with draws := k } (a + 1)
    exact ⟨j, by simp only [State.readBytes, hk, hj]⟩

theorem readBytes_length (s : State) (a n : Nat) : (s.readBytes a n).1.length = n := by
  induction n generalizing s a with
  | zero => rfl
  | succ n ih => simp [State.readBytes, ih]

/-- `MemRead` of written bytes gives them and changes nothing. -/
theorem readBytes_written {s : State} {a : Nat} {bs : List Byte}
    (h : ∀ (i : Nat) (hi : i < bs.length), s.byteAt (a + i) = some bs[i]) :
    s.readBytes a bs.length = (bs, s) := by
  induction bs generalizing a with
  | nil => rfl
  | cons b bs ih =>
    have h0 : s.byteAt a = some b := h 0 (by simp)
    have hs : ∀ (i : Nat) (hi : i < bs.length), s.byteAt (a + 1 + i) = some bs[i] := fun i hi => by
      have := h (i + 1) (by simpa using hi)
      simpa [Nat.add_assoc, Nat.add_comm 1 i] using this
    simp [State.readBytes, readByte_written h0, ih hs]

/-- `MemRead` gives each written byte in its place, whatever the bytes around it. -/
theorem readBytes_getElem? {s : State} {a n k : Nat} {b : Byte} (hk : k < n)
    (h : s.byteAt (a + k) = some b) : (s.readBytes a n).1[k]? = some b := by
  induction n generalizing s a k with
  | zero => omega
  | succ n ih =>
    simp only [State.readBytes]
    cases k with
    | zero => simp [readByte_written (show s.byteAt a = some b from h)]
    | succ k =>
      obtain ⟨d, hd⟩ := readByte_state s a
      rw [hd, List.getElem?_cons_succ]
      exact ih (s := { s with draws := d }) (by omega) (by rwa [Nat.add_right_comm] : s.byteAt (a + 1 + k) = some b)

/-- `MemRead` of written bytes draws none. -/
theorem readBytes_draws {s : State} {a n : Nat} (h : ∀ k < n, s.byteAt (a + k) ≠ none) :
    (s.readBytes a n).2.draws = s.draws := by
  induction n generalizing a with
  | zero => rfl
  | succ n ih =>
    obtain ⟨b, hb⟩ := Option.ne_none_iff_exists'.mp (h 0 (by omega))
    simp only [State.readBytes, readByte_written (show s.byteAt a = some b from hb)]
    exact ih fun k hk => by have := h (k + 1) (by omega); rwa [Nat.add_assoc, Nat.add_comm 1 k]

end Sys2Proof.Machine
end

