-- ==== Sys2Proof/Laws/Ops.lean ====
section
/-! SUPPORT. What each shared operation can do, said once: later proofs cite these and unfold nothing. -/

namespace Sys2Proof.Machine

/-! ### The shared predicates hold of the shared operations -/

theorem SameBytes.refl (s : State) : SameBytes s s := ⟨fun _ => rfl, rfl, rfl⟩

theorem SamePorts.refl (s : State) : SamePorts s s := ⟨rfl, rfl, rfl, rfl⟩

theorem SameRegs.refl (s : State) : SameRegs s s := fun _ => rfl

/-- What is left unchanged by a change of registers and STATUS alone. -/
theorem sameBytes_of_wbuf {s t : State} (h : t.wbuf = s.wbuf) (hd : t.draws = s.draws) : SameBytes s t :=
  ⟨fun a => by simp [State.byteAt, h], h, hd⟩

/-! ### Fatal faults -/

/-- `raise Fault(cause)` answers a next state that differs in FAULT and FCAUSE alone (60_exceptions.md R202). -/
theorem raiseFault_faults {c : Cause} {s t : State} (h : raiseFault c s = .next t) : Faults c s t := by
  cases h
  exact ⟨fun _ => rfl, rfl, ⟨fun _ => rfl, rfl, rfl⟩, ⟨rfl, rfl, rfl, rfl⟩⟩

theorem raiseFault_next (c : Cause) (s : State) : ∃ t, raiseFault c s = .next t ∧ Faults c s t :=
  ⟨_, rfl, raiseFault_faults rfl⟩

/-! ### Commit -/

theorem commitThen_of_lt {rd : Reg} {v : Nat} {s : State} (f : State → State) (h : maxValue < v) :
    commitThen rd v s f = raiseFault .range s := if_pos h

theorem commitThen_of_le {rd : Reg} {v : Nat} {s : State} (f : State → State) (h : v ≤ maxValue) :
    commitThen rd v s f = .next (f (s.setReg rd (BitVec.ofNat 64 v))) := if_neg (Nat.not_lt.mpr h)

/-- All that `Commit` and the write after it can do (10_state.md R24). -/
theorem commitThen_cases {rd : Reg} {v : Nat} {s t : State} {f : State → State}
    (h : commitThen rd v s f = .next t) :
    (maxValue < v ∧ Faults .range s t)
    ∨ (v ≤ maxValue ∧ t = f (s.setReg rd (BitVec.ofNat 64 v))) := by
  rcases Nat.lt_or_ge maxValue v with hv | hv
  · exact .inl ⟨hv, raiseFault_faults (commitThen_of_lt f hv ▸ h)⟩
  · rw [commitThen_of_le f hv] at h
    cases h
    exact .inr ⟨hv, rfl⟩

/-- A committed value reads back as itself. -/
theorem setReg_val_self {s : State} {rd : Reg} {v : Nat} (h : v ≤ maxValue) :
    (s.setReg rd (BitVec.ofNat 64 v)).val rd = v := by
  simp only [State.val, State.setReg_reg_self, BitVec.toNat_ofNat]
  exact Nat.mod_eq_of_lt (lt_of_le_of_lt h (by decide))

theorem setReg_sameRegsBut (s : State) (rd : Reg) (w : Word) : SameRegsBut rd s (s.setReg rd w) :=
  fun r hr => State.setReg_reg_of_ne s rd r w hr

/-- A value of at most MAX is committed: the command completes. -/
theorem commitOk_completes {rd : Reg} {v : Nat} {s : State} (h : v ≤ maxValue) :
    ∃ t, commitOk rd v s = .next t ∧ Completes rd v s t := by
  refine ⟨_, commitThen_of_le _ h, ?_, fun r hr => ?_, rfl, ⟨fun _ => rfl, rfl, rfl⟩, ⟨rfl, rfl, rfl, rfl⟩⟩
  · exact setReg_val_self h
  · exact State.setReg_reg_of_ne s rd r _ hr

/-- A value above MAX raises RANGE. -/
theorem commitOk_faults {rd : Reg} {v : Nat} {s : State} (h : maxValue < v) :
    ∃ t, commitOk rd v s = .next t ∧ Faults .range s t := by
  rw [commitOk, commitThen_of_lt _ h]
  exact raiseFault_next .range s

/-- All that the ending of a command outside the codec can do. -/
theorem commitOk_cases {rd : Reg} {v : Nat} {s t : State} (h : commitOk rd v s = .next t) :
    (maxValue < v ∧ Faults .range s t) ∨ (v ≤ maxValue ∧ Completes rd v s t) := by
  rcases Nat.lt_or_ge maxValue v with hv | hv
  · obtain ⟨u, hu, hf⟩ := commitOk_faults (rd := rd) (s := s) hv
    cases hu.symm.trans h
    exact .inl ⟨hv, hf⟩
  · obtain ⟨u, hu, hc⟩ := commitOk_completes (rd := rd) (s := s) hv
    cases hu.symm.trans h
    exact .inr ⟨hv, hc⟩

/-- The ending of MFLEN and MFST, for a value of at most MAX. -/
theorem commitThen_moves {rd : Reg} {v : Nat} {s : State} (h : v ≤ maxValue) :
    ∃ t, commitThen rd v s id = .next t ∧ Moves rd v s t := by
  refine ⟨_, commitThen_of_le _ h, ?_, fun r hr => ?_, rfl, ⟨fun _ => rfl, rfl, rfl⟩, ⟨rfl, rfl, rfl, rfl⟩⟩
  · exact setReg_val_self h
  · exact State.setReg_reg_of_ne s rd r _ hr

/-! ### Reports -/

/-- `report(err)` writes STATUS.ERR and nothing else (60_exceptions.md R201). -/
theorem report_next (e : ErrCode) (s : State) : ∃ t, report e s = .next t ∧ Reports e s t :=
  ⟨_, rfl, fun _ => rfl, rfl, ⟨fun _ => rfl, rfl, rfl⟩, ⟨rfl, rfl, rfl, rfl⟩⟩

theorem setCodec_codecStatus (s : State) (e : ErrCode) {l r : Nat} (hl : l < 16) (hr : r < 16) :
    CodecStatus e l r s (s.setCodec e l r) :=
  ⟨rfl, by simp [Nat.mod_eq_of_lt hl], by simp [Nat.mod_eq_of_lt hr], rfl, rfl⟩

/-- `report(err)` of DEC and ENC writes ERR, LEN and REQ and nothing else. -/
theorem reportCodec_next (e : ErrCode) {l r : Nat} (s : State) (hl : l < 16) (hr : r < 16) :
    ∃ t, reportCodec e l r s = .next t ∧ ReportsCodec e l r s t :=
  ⟨_, rfl, fun _ => rfl, setCodec_codecStatus s e hl hr, ⟨fun _ => rfl, rfl, rfl⟩, ⟨rfl, rfl, rfl, rfl⟩⟩

/-! ### RegionCheck -/

theorem regionCheck_of_lt {off len : Nat} {s : State} (k : Out) (h : s.cfg.wbufSize < off + len) :
    regionCheck off len s k = raiseFault .region s := if_pos h

theorem regionCheck_of_le {off len : Nat} {s : State} (k : Out) (h : off + len ≤ s.cfg.wbufSize) :
    regionCheck off len s k = k := if_neg (Nat.not_lt.mpr h)

/-- All that the bounds check can do (20_memory.md R53). -/
theorem regionCheck_cases {off len : Nat} {s t : State} {k : Out}
    (h : regionCheck off len s k = .next t) :
    (s.cfg.wbufSize < off + len ∧ Faults .region s t) ∨ (off + len ≤ s.cfg.wbufSize ∧ k = .next t) := by
  rcases Nat.lt_or_ge s.cfg.wbufSize (off + len) with hv | hv
  · exact .inl ⟨hv, raiseFault_faults (regionCheck_of_lt k hv ▸ h)⟩
  · exact .inr ⟨hv, regionCheck_of_le k hv ▸ h⟩

/-! ### The ports -/

/-- All that ISSUE can do (30_encoding.md R70). -/
theorem issue_cases {c : Command} {s t : State} (h : issue c s = .next t) :
    (s.status.fault = true ∧ t = s)
    ∨ (s.status.fault = false ∧ legal c = false ∧ Faults .illegal s t)
    ∨ (s.status.fault = false ∧ ∃ i, decode c = .ok i ∧ exec i s = .next t) := by
  unfold issue at h
  cases hf : s.status.fault with
  | true =>
    rw [hf, if_pos rfl] at h
    cases h
    exact .inl ⟨rfl, rfl⟩
  | false =>
    rw [hf, if_neg (by simp)] at h
    cases hd : decode c with
    | error e =>
      rw [hd] at h
      exact .inr (.inl ⟨rfl, by simp [legal, hd], raiseFault_faults h⟩)
    | ok i =>
      rw [hd] at h
      exact .inr (.inr ⟨rfl, i, rfl, h⟩)

/-- An ISSUE is ignored while FAULT = 1 (60_exceptions.md R205). -/
theorem issue_faulted {c : Command} {s : State} (h : s.status.fault = true) : issue c s = .next s :=
  if_pos h

/-- An ISSUE of a legal word runs its command. -/
theorem issue_ok {c : Command} {s : State} {i : Instr} (h : s.status.fault = false)
    (hd : decode c = .ok i) : issue c s = exec i s := by
  simp [issue, h, hd]

/-- An ISSUE of an illegal word raises ILLEGAL (30_encoding.md R80). -/
theorem issue_illegal {c : Command} {s : State} (h : s.status.fault = false) (hl : legal c = false) :
    issue c s = raiseFault .illegal s := by
  unfold legal at hl
  cases hd : decode c with
  | ok i => simp [hd] at hl
  | error e => simp [issue, h, hd]

/-- All that one step can do: nothing when no operation is pending, else the first operation. -/
theorem step_cases (s : State) :
    (s.pending = [] ∧ step s = .next s)
    ∨ ∃ op rest, s.pending = op :: rest ∧ step s = perform op (s.accept rest) := by
  unfold step
  cases s.pending with
  | nil => exact .inl ⟨rfl, rfl⟩
  | cons op rest => exact .inr ⟨op, rest, rfl, rfl⟩

theorem step_cons {s : State} {op : HostOp} {rest : List HostOp} (h : s.pending = op :: rest) :
    step s = perform op (s.accept rest) := by
  simp [step, h]

end Sys2Proof.Machine
end

