-- ==== Sys2Proof/Laws/Values.lean ====
section
/-! SUPPORT. Bounds of the computed values: which commands cannot raise RANGE, and the wire lengths. -/

namespace Sys2Proof.Machine

/-- The four encoded lengths (41_classify.md R130). -/
theorem elen_cases (v : Nat) : elen v = 1 ∨ elen v = 2 ∨ elen v = 4 ∨ elen v = 8 := by
  unfold elen ebw bw
  split_ifs <;> simp

/-- The four wire lengths (42_codec.md R141). -/
theorem wireLen_cases (b : Byte) : wireLen b = 1 ∨ wireLen b = 2 ∨ wireLen b = 4 ∨ wireLen b = 8 := by
  unfold wireLen
  have h := (b.extractLsb' 6 2).isLt
  interval_cases (b.extractLsb' 6 2).toNat <;> simp

theorem bw_le (v : Nat) : bw v ≤ 62 := by
  unfold bw
  split_ifs <;> omega

theorem trailingZeros_le (fuel a : Nat) : trailingZeros fuel a ≤ fuel := by
  induction fuel generalizing a with
  | zero => exact Nat.le_refl 0
  | succ n ih =>
    have := ih (a / 2)
    unfold trailingZeros
    split_ifs <;> omega

theorem ctzValue_le (z : Config.CtzZero) (a : Nat) : ctzValue z a ≤ 64 := by
  unfold ctzValue
  split_ifs
  · cases z <;> simp [ctzZeroValue]
  · exact trailingZeros_le 64 a

/-- A decoded value is at most MAX (42_codec.md R141). -/
theorem wireValue_le {l : Nat} (bs : List Byte) (h : l ≤ 8) : wireValue bs l ≤ maxValue := by
  have h1 : wireValue bs l < 2 ^ (8 * l - 2) := Nat.mod_lt _ (Nat.two_pow_pos _)
  have h2 : 2 ^ (8 * l - 2) ≤ 2 ^ 62 := Nat.pow_le_pow_right (by omega) (by omega)
  have h3 : maxValue = 2 ^ 62 - 1 := rfl
  omega

theorem truthValue_le (p : Bool) : truthValue p ≤ maxValue := by cases p <;> decide

theorem wireEncode_length (v : Nat) : (wireEncode v).length = elen v := by simp [wireEncode]

/-- STATUS as a number is below 2^32 (42_codec.md R150). -/
theorem word_le (t : Status) : t.word.toNat ≤ maxValue :=
  (Nat.le_of_lt t.word.isLt).trans (by decide)

theorem len_le (t : Status) : t.len.toNat ≤ maxValue :=
  (Nat.le_of_lt t.len.isLt).trans (by decide)

end Sys2Proof.Machine
end

