-- ==== Sys2Proof/Laws/Endings.lean ====
section
/-! SUPPORT. What a command can do, said once: each way it can end, with its frame (60_exceptions.md R200).
Invariants and frames over all commands follow from these without unfolding a meaning. -/

namespace Sys2Proof.Machine

/-- The endings of a command outside the codec: a fatal fault, a completion, or NOT_EXACT. -/
def AluEnding (rd : Reg) (s t : State) : Prop :=
  (∃ c, c ≠ .none ∧ Faults c s t) ∨ (∃ v, v ≤ maxValue ∧ Completes rd v s t) ∨ Reports .notExact s t

theorem aluEnding_commitOk {rd : Reg} {v : Nat} {s t : State} (h : commitOk rd v s = .next t) :
    AluEnding rd s t := by
  rcases commitOk_cases h with ⟨-, hf⟩ | ⟨hv, hc⟩
  · exact .inl ⟨.range, by decide, hf⟩
  · exact .inr (.inl ⟨v, hv, hc⟩)

theorem aluEnding_fault {c : Cause} {rd : Reg} {s t : State} (hc : c ≠ .none)
    (h : raiseFault c s = .next t) : AluEnding rd s t := .inl ⟨c, hc, raiseFault_faults h⟩

theorem aluEnding_report {rd : Reg} {s t : State} (h : report .notExact s = .next t) :
    AluEnding rd s t := by
  obtain ⟨u, hu, hr⟩ := report_next .notExact s
  cases hu.symm.trans h
  exact .inr (.inr hr)

/-- Every command of the first row of 10_state.md R34's table ends in one of these ways. -/
theorem exec_alu_cases {i : Instr} {rd : Reg} {s t : State} (hg : statusGroup i = .errOnly)
    (hd : destination i = some rd) (h : exec i s = .next t) : AluEnding rd s t := by
  cases i <;> simp only [statusGroup, reduceCtorEq] at hg <;> simp only [destination, Option.some.injEq] at hd <;>
    subst hd <;> simp only [exec] at h
  case cvtdS rd =>
    unfold execCvtdS at h
    split_ifs at h
    · exact aluEnding_fault (by decide) h
    · exact aluEnding_commitOk h
  case cvtdF rd =>
    unfold execCvtdF at h
    split at h
    · exact aluEnding_fault (by decide) h
    · exact aluEnding_fault (by decide) h
    · split_ifs at h
      · exact aluEnding_fault (by decide) h
      · exact aluEnding_commitOk h
  case cvtxS rd =>
    unfold execCvtxS at h
    split_ifs at h
    · exact aluEnding_report h
    · exact aluEnding_commitOk h
  case cvtxF rd =>
    unfold execCvtxF at h
    split at h
    · exact aluEnding_report h
    · exact aluEnding_report h
    · split_ifs at h
      · exact aluEnding_report h
      · exact aluEnding_commitOk h
  case sub rd a b =>
    unfold execSub at h
    split_ifs at h
    · exact aluEnding_fault (by decide) h
    · exact aluEnding_commitOk h
  case mul rd a b =>
    unfold execMul at h
    split_ifs at h
    · exact aluEnding_fault (by decide) h
    · exact aluEnding_commitOk h
  case div rd a b =>
    unfold execDiv at h
    split_ifs at h
    · exact aluEnding_fault (by decide) h
    · exact aluEnding_commitOk h
  case rem rd a b =>
    unfold execRem at h
    split_ifs at h
    · exact aluEnding_fault (by decide) h
    · exact aluEnding_commitOk h
  all_goals exact aluEnding_commitOk h

/-- MFLEN and MFST always complete, leaving STATUS alone. -/
theorem execMflen_moves (rd : Reg) (s : State) :
    ∃ t, execMflen rd s = .next t ∧ Moves rd s.status.len.toNat s t :=
  commitThen_moves (len_le s.status)

theorem execMfst_moves (rd : Reg) (s : State) :
    ∃ t, execMfst rd s = .next t ∧ Moves rd s.status.word.toNat s t :=
  commitThen_moves (word_le s.status)

/-- DEC once its first byte is read: too few bytes, or the value of the bytes read, with the state that reading
them leaves. -/
theorem decFrom_cases {rd : Reg} {off avail : Nat} {b0 : Byte} {s t : State}
    (h : decFrom rd off avail b0 s = .next t) :
    (avail < wireLen b0 ∧ t = s.setCodec .bufferTooSmall 0 (wireLen b0))
    ∨ (wireLen b0 ≤ avail
        ∧ t = ((s.readBytes (off + 1) (wireLen b0 - 1)).2.setReg rd (BitVec.ofNat 64
                (wireValue (b0 :: (s.readBytes (off + 1) (wireLen b0 - 1)).1) (wireLen b0)))).setCodec
              .ok (wireLen b0) 0) := by
  unfold decFrom at h
  split_ifs at h with hv
  · cases h
    exact .inl ⟨hv, rfl⟩
  · have h8 : wireLen b0 ≤ 8 := by rcases wireLen_cases b0 with e | e | e | e <;> omega
    have hle := wireValue_le (b0 :: (s.readBytes (off + 1) (wireLen b0 - 1)).1) h8
    rw [decTail, commitThen_of_le _ hle] at h
    cases h
    exact .inr ⟨Nat.le_of_not_lt hv, rfl⟩

/-- All that DEC can do (42_codec.md R142). -/
theorem execDec_cases {rd ro ra : Reg} {s t : State} (h : execDec rd ro ra s = .next t) :
    (s.cfg.wbufSize < s.val ro + s.val ra ∧ Faults .region s t)
    ∨ (s.val ro + s.val ra ≤ s.cfg.wbufSize ∧ s.val ra = 0 ∧ ReportsCodec .empty 0 0 s t)
    ∨ (s.val ro + s.val ra ≤ s.cfg.wbufSize ∧ s.val ra ≠ 0
        ∧ decFrom rd (s.val ro) (s.val ra) (s.readByte (s.val ro)).1 (s.readByte (s.val ro)).2
            = .next t) := by
  rcases regionCheck_cases h with ⟨hr, hf⟩ | ⟨hr, hk⟩
  · exact .inl ⟨hr, hf⟩
  · by_cases h0 : s.val ra = 0
    · rw [if_pos h0] at hk
      obtain ⟨u, hu, hc⟩ := reportCodec_next .empty (l := 0) (r := 0) s (by decide) (by decide)
      cases hu.symm.trans hk
      exact .inr (.inl ⟨hr, h0, hc⟩)
    · rw [if_neg h0] at hk
      exact .inr (.inr ⟨hr, h0, hk⟩)

/-- All that ENC can do (42_codec.md R146). -/
theorem execEnc_cases {rv ro rc : Reg} {s t : State} (h : execEnc rv ro rc s = .next t) :
    (s.cfg.wbufSize < s.val ro + s.val rc ∧ Faults .region s t)
    ∨ (s.val ro + s.val rc ≤ s.cfg.wbufSize ∧ s.val rc < elen (s.val rv)
        ∧ ReportsCodec .bufferTooSmall 0 (elen (s.val rv)) s t)
    ∨ (s.val ro + s.val rc ≤ s.cfg.wbufSize ∧ elen (s.val rv) ≤ s.val rc
        ∧ t = (s.writeBytes (s.val ro) (wireEncode (s.val rv))).setCodec .ok (elen (s.val rv)) 0) := by
  rcases regionCheck_cases h with ⟨hr, hf⟩ | ⟨hr, hk⟩
  · exact .inl ⟨hr, hf⟩
  · by_cases h0 : s.val rc < elen (s.val rv)
    · rw [if_pos h0] at hk
      have hl : elen (s.val rv) < 16 := by rcases elen_cases (s.val rv) with e | e | e | e <;> omega
      obtain ⟨u, hu, hc⟩ := reportCodec_next .bufferTooSmall (l := 0) s (by decide) hl
      cases hu.symm.trans hk
      exact .inr (.inl ⟨hr, h0, hc⟩)
    · rw [if_neg h0] at hk
      cases hk
      exact .inr (.inr ⟨hr, Nat.le_of_not_lt h0, rfl⟩)

end Sys2Proof.Machine
end

