-- ==== Sys2Proof/Laws/PerInstr.lean ====
section
/-! SUPPORT. Statements for all instructions, one lemma per constructor of Instr. -/

/-- The word of an instruction matches a row of the opcode table, the row of its own opcode (30_encoding.md
R75): no must-be-zero bit is set. -/
def Sys2Proof.Laws.EncodedRow.Statement (i : Sys2Proof.Instr) : Prop :=
  ∃ r, r ∈ Sys2Proof.opcodeTable ∧ r.matches (Sys2Proof.encode i)

theorem Sys2Proof.Laws.EncodedRow.ldi (a : Sys2Proof.Reg) (b : BitVec 16) : Sys2Proof.Laws.EncodedRow.Statement (.ldi a b) :=
  ⟨⟨0x01, "LDI", 0x01000000, 0xFF1F0000, .imm .ldi⟩, by simp [Sys2Proof.opcodeTable, Sys2Proof.constructRows, Sys2Proof.codecRows, Sys2Proof.aluRows],
    (Sys2Proof.encodeI_mask 0x01 a b).trans (by decide)⟩

theorem Sys2Proof.Laws.EncodedRow.ldmax (a : Sys2Proof.Reg) : Sys2Proof.Laws.EncodedRow.Statement (.ldmax a) :=
  ⟨⟨0x02, "LDMAX", 0x02000000, 0xFF1FFFFF, .r1 .ldmax⟩, by simp [Sys2Proof.opcodeTable, Sys2Proof.constructRows, Sys2Proof.codecRows, Sys2Proof.aluRows],
    (Sys2Proof.encodeR1_mask 0x02 a).trans (by decide)⟩

theorem Sys2Proof.Laws.EncodedRow.cvtdU (a : Sys2Proof.Reg) : Sys2Proof.Laws.EncodedRow.Statement (.cvtdU a) :=
  ⟨⟨0x04, "CVTD.U", 0x04000000, 0xFF1FFFFF, .r1 .cvtdU⟩, by simp [Sys2Proof.opcodeTable, Sys2Proof.constructRows, Sys2Proof.codecRows, Sys2Proof.aluRows],
    (Sys2Proof.encodeR1_mask 0x04 a).trans (by decide)⟩

theorem Sys2Proof.Laws.EncodedRow.cvtdS (a : Sys2Proof.Reg) : Sys2Proof.Laws.EncodedRow.Statement (.cvtdS a) :=
  ⟨⟨0x05, "CVTD.S", 0x05000000, 0xFF1FFFFF, .r1 .cvtdS⟩, by simp [Sys2Proof.opcodeTable, Sys2Proof.constructRows, Sys2Proof.codecRows, Sys2Proof.aluRows],
    (Sys2Proof.encodeR1_mask 0x05 a).trans (by decide)⟩

theorem Sys2Proof.Laws.EncodedRow.cvtdF (a : Sys2Proof.Reg) : Sys2Proof.Laws.EncodedRow.Statement (.cvtdF a) :=
  ⟨⟨0x06, "CVTD.F", 0x06000000, 0xFF1FFFFF, .r1 .cvtdF⟩, by simp [Sys2Proof.opcodeTable, Sys2Proof.constructRows, Sys2Proof.codecRows, Sys2Proof.aluRows],
    (Sys2Proof.encodeR1_mask 0x06 a).trans (by decide)⟩

theorem Sys2Proof.Laws.EncodedRow.cvtcU (a : Sys2Proof.Reg) : Sys2Proof.Laws.EncodedRow.Statement (.cvtcU a) :=
  ⟨⟨0x08, "CVTC.U", 0x08000000, 0xFF1FFFFF, .r1 .cvtcU⟩, by simp [Sys2Proof.opcodeTable, Sys2Proof.constructRows, Sys2Proof.codecRows, Sys2Proof.aluRows],
    (Sys2Proof.encodeR1_mask 0x08 a).trans (by decide)⟩

theorem Sys2Proof.Laws.EncodedRow.cvtcS (a : Sys2Proof.Reg) : Sys2Proof.Laws.EncodedRow.Statement (.cvtcS a) :=
  ⟨⟨0x09, "CVTC.S", 0x09000000, 0xFF1FFFFF, .r1 .cvtcS⟩, by simp [Sys2Proof.opcodeTable, Sys2Proof.constructRows, Sys2Proof.codecRows, Sys2Proof.aluRows],
    (Sys2Proof.encodeR1_mask 0x09 a).trans (by decide)⟩

theorem Sys2Proof.Laws.EncodedRow.cvttU (a : Sys2Proof.Reg) : Sys2Proof.Laws.EncodedRow.Statement (.cvttU a) :=
  ⟨⟨0x0C, "CVTT.U", 0x0C000000, 0xFF1FFFFF, .r1 .cvttU⟩, by simp [Sys2Proof.opcodeTable, Sys2Proof.constructRows, Sys2Proof.codecRows, Sys2Proof.aluRows],
    (Sys2Proof.encodeR1_mask 0x0C a).trans (by decide)⟩

theorem Sys2Proof.Laws.EncodedRow.cvttS (a : Sys2Proof.Reg) : Sys2Proof.Laws.EncodedRow.Statement (.cvttS a) :=
  ⟨⟨0x0D, "CVTT.S", 0x0D000000, 0xFF1FFFFF, .r1 .cvttS⟩, by simp [Sys2Proof.opcodeTable, Sys2Proof.constructRows, Sys2Proof.codecRows, Sys2Proof.aluRows],
    (Sys2Proof.encodeR1_mask 0x0D a).trans (by decide)⟩

theorem Sys2Proof.Laws.EncodedRow.cvtxU (a : Sys2Proof.Reg) : Sys2Proof.Laws.EncodedRow.Statement (.cvtxU a) :=
  ⟨⟨0x10, "CVTX.U", 0x10000000, 0xFF1FFFFF, .r1 .cvtxU⟩, by simp [Sys2Proof.opcodeTable, Sys2Proof.constructRows, Sys2Proof.codecRows, Sys2Proof.aluRows],
    (Sys2Proof.encodeR1_mask 0x10 a).trans (by decide)⟩

theorem Sys2Proof.Laws.EncodedRow.cvtxS (a : Sys2Proof.Reg) : Sys2Proof.Laws.EncodedRow.Statement (.cvtxS a) :=
  ⟨⟨0x11, "CVTX.S", 0x11000000, 0xFF1FFFFF, .r1 .cvtxS⟩, by simp [Sys2Proof.opcodeTable, Sys2Proof.constructRows, Sys2Proof.codecRows, Sys2Proof.aluRows],
    (Sys2Proof.encodeR1_mask 0x11 a).trans (by decide)⟩

theorem Sys2Proof.Laws.EncodedRow.cvtxF (a : Sys2Proof.Reg) : Sys2Proof.Laws.EncodedRow.Statement (.cvtxF a) :=
  ⟨⟨0x12, "CVTX.F", 0x12000000, 0xFF1FFFFF, .r1 .cvtxF⟩, by simp [Sys2Proof.opcodeTable, Sys2Proof.constructRows, Sys2Proof.codecRows, Sys2Proof.aluRows],
    (Sys2Proof.encodeR1_mask 0x12 a).trans (by decide)⟩

theorem Sys2Proof.Laws.EncodedRow.bitw (a b : Sys2Proof.Reg) : Sys2Proof.Laws.EncodedRow.Statement (.bitw a b) :=
  ⟨⟨0x18, "BITW", 0x18000000, 0xFF03FFFF, .r2 .bitw⟩, by simp [Sys2Proof.opcodeTable, Sys2Proof.constructRows, Sys2Proof.codecRows, Sys2Proof.aluRows],
    (Sys2Proof.encodeR2_mask 0x18 a b).trans (by decide)⟩

theorem Sys2Proof.Laws.EncodedRow.ebitw (a b : Sys2Proof.Reg) : Sys2Proof.Laws.EncodedRow.Statement (.ebitw a b) :=
  ⟨⟨0x19, "EBITW", 0x19000000, 0xFF03FFFF, .r2 .ebitw⟩, by simp [Sys2Proof.opcodeTable, Sys2Proof.constructRows, Sys2Proof.codecRows, Sys2Proof.aluRows],
    (Sys2Proof.encodeR2_mask 0x19 a b).trans (by decide)⟩

theorem Sys2Proof.Laws.EncodedRow.elen (a b : Sys2Proof.Reg) : Sys2Proof.Laws.EncodedRow.Statement (.elen a b) :=
  ⟨⟨0x1A, "ELEN", 0x1A000000, 0xFF03FFFF, .r2 .elen⟩, by simp [Sys2Proof.opcodeTable, Sys2Proof.constructRows, Sys2Proof.codecRows, Sys2Proof.aluRows],
    (Sys2Proof.encodeR2_mask 0x1A a b).trans (by decide)⟩

theorem Sys2Proof.Laws.EncodedRow.ctz (a b : Sys2Proof.Reg) : Sys2Proof.Laws.EncodedRow.Statement (.ctz a b) :=
  ⟨⟨0x1B, "CTZ", 0x1B000000, 0xFF03FFFF, .r2 .ctz⟩, by simp [Sys2Proof.opcodeTable, Sys2Proof.constructRows, Sys2Proof.codecRows, Sys2Proof.aluRows],
    (Sys2Proof.encodeR2_mask 0x1B a b).trans (by decide)⟩

theorem Sys2Proof.Laws.EncodedRow.dec (a b c : Sys2Proof.Reg) : Sys2Proof.Laws.EncodedRow.Statement (.dec a b c) :=
  ⟨⟨0x20, "DEC", 0x20000000, 0xFF007FFF, .r3 .dec⟩, by simp [Sys2Proof.opcodeTable, Sys2Proof.constructRows, Sys2Proof.codecRows, Sys2Proof.aluRows],
    (Sys2Proof.encodeR3_mask 0x20 a b c).trans (by decide)⟩

theorem Sys2Proof.Laws.EncodedRow.enc (a b c : Sys2Proof.Reg) : Sys2Proof.Laws.EncodedRow.Statement (.enc a b c) :=
  ⟨⟨0x21, "ENC", 0x21000000, 0xFF007FFF, .r3 .enc⟩, by simp [Sys2Proof.opcodeTable, Sys2Proof.constructRows, Sys2Proof.codecRows, Sys2Proof.aluRows],
    (Sys2Proof.encodeR3_mask 0x21 a b c).trans (by decide)⟩

theorem Sys2Proof.Laws.EncodedRow.mflen (a : Sys2Proof.Reg) : Sys2Proof.Laws.EncodedRow.Statement (.mflen a) :=
  ⟨⟨0x22, "MFLEN", 0x22000000, 0xFF1FFFFF, .r1 .mflen⟩, by simp [Sys2Proof.opcodeTable, Sys2Proof.constructRows, Sys2Proof.codecRows, Sys2Proof.aluRows],
    (Sys2Proof.encodeR1_mask 0x22 a).trans (by decide)⟩

theorem Sys2Proof.Laws.EncodedRow.mfst (a : Sys2Proof.Reg) : Sys2Proof.Laws.EncodedRow.Statement (.mfst a) :=
  ⟨⟨0x23, "MFST", 0x23000000, 0xFF1FFFFF, .r1 .mfst⟩, by simp [Sys2Proof.opcodeTable, Sys2Proof.constructRows, Sys2Proof.codecRows, Sys2Proof.aluRows],
    (Sys2Proof.encodeR1_mask 0x23 a).trans (by decide)⟩

theorem Sys2Proof.Laws.EncodedRow.add (a b c : Sys2Proof.Reg) : Sys2Proof.Laws.EncodedRow.Statement (.add a b c) :=
  ⟨⟨0x30, "ADD", 0x30000000, 0xFF007FFF, .r3 .add⟩, by simp [Sys2Proof.opcodeTable, Sys2Proof.constructRows, Sys2Proof.codecRows, Sys2Proof.aluRows],
    (Sys2Proof.encodeR3_mask 0x30 a b c).trans (by decide)⟩

theorem Sys2Proof.Laws.EncodedRow.sub (a b c : Sys2Proof.Reg) : Sys2Proof.Laws.EncodedRow.Statement (.sub a b c) :=
  ⟨⟨0x31, "SUB", 0x31000000, 0xFF007FFF, .r3 .sub⟩, by simp [Sys2Proof.opcodeTable, Sys2Proof.constructRows, Sys2Proof.codecRows, Sys2Proof.aluRows],
    (Sys2Proof.encodeR3_mask 0x31 a b c).trans (by decide)⟩

theorem Sys2Proof.Laws.EncodedRow.mul (a b c : Sys2Proof.Reg) : Sys2Proof.Laws.EncodedRow.Statement (.mul a b c) :=
  ⟨⟨0x32, "MUL", 0x32000000, 0xFF007FFF, .r3 .mul⟩, by simp [Sys2Proof.opcodeTable, Sys2Proof.constructRows, Sys2Proof.codecRows, Sys2Proof.aluRows],
    (Sys2Proof.encodeR3_mask 0x32 a b c).trans (by decide)⟩

theorem Sys2Proof.Laws.EncodedRow.div (a b c : Sys2Proof.Reg) : Sys2Proof.Laws.EncodedRow.Statement (.div a b c) :=
  ⟨⟨0x33, "DIV", 0x33000000, 0xFF007FFF, .r3 .div⟩, by simp [Sys2Proof.opcodeTable, Sys2Proof.constructRows, Sys2Proof.codecRows, Sys2Proof.aluRows],
    (Sys2Proof.encodeR3_mask 0x33 a b c).trans (by decide)⟩

theorem Sys2Proof.Laws.EncodedRow.rem (a b c : Sys2Proof.Reg) : Sys2Proof.Laws.EncodedRow.Statement (.rem a b c) :=
  ⟨⟨0x34, "REM", 0x34000000, 0xFF007FFF, .r3 .rem⟩, by simp [Sys2Proof.opcodeTable, Sys2Proof.constructRows, Sys2Proof.codecRows, Sys2Proof.aluRows],
    (Sys2Proof.encodeR3_mask 0x34 a b c).trans (by decide)⟩

theorem Sys2Proof.Laws.EncodedRow.and (a b c : Sys2Proof.Reg) : Sys2Proof.Laws.EncodedRow.Statement (.and a b c) :=
  ⟨⟨0x38, "AND", 0x38000000, 0xFF007FFF, .r3 .and⟩, by simp [Sys2Proof.opcodeTable, Sys2Proof.constructRows, Sys2Proof.codecRows, Sys2Proof.aluRows],
    (Sys2Proof.encodeR3_mask 0x38 a b c).trans (by decide)⟩

theorem Sys2Proof.Laws.EncodedRow.or (a b c : Sys2Proof.Reg) : Sys2Proof.Laws.EncodedRow.Statement (.or a b c) :=
  ⟨⟨0x39, "OR", 0x39000000, 0xFF007FFF, .r3 .or⟩, by simp [Sys2Proof.opcodeTable, Sys2Proof.constructRows, Sys2Proof.codecRows, Sys2Proof.aluRows],
    (Sys2Proof.encodeR3_mask 0x39 a b c).trans (by decide)⟩

theorem Sys2Proof.Laws.EncodedRow.xor (a b c : Sys2Proof.Reg) : Sys2Proof.Laws.EncodedRow.Statement (.xor a b c) :=
  ⟨⟨0x3A, "XOR", 0x3A000000, 0xFF007FFF, .r3 .xor⟩, by simp [Sys2Proof.opcodeTable, Sys2Proof.constructRows, Sys2Proof.codecRows, Sys2Proof.aluRows],
    (Sys2Proof.encodeR3_mask 0x3A a b c).trans (by decide)⟩

theorem Sys2Proof.Laws.EncodedRow.not (a b : Sys2Proof.Reg) : Sys2Proof.Laws.EncodedRow.Statement (.not a b) :=
  ⟨⟨0x3B, "NOT", 0x3B000000, 0xFF03FFFF, .r2 .not⟩, by simp [Sys2Proof.opcodeTable, Sys2Proof.constructRows, Sys2Proof.codecRows, Sys2Proof.aluRows],
    (Sys2Proof.encodeR2_mask 0x3B a b).trans (by decide)⟩

theorem Sys2Proof.Laws.EncodedRow.shl (a b c : Sys2Proof.Reg) : Sys2Proof.Laws.EncodedRow.Statement (.shl a b c) :=
  ⟨⟨0x3C, "SHL", 0x3C000000, 0xFF007FFF, .r3 .shl⟩, by simp [Sys2Proof.opcodeTable, Sys2Proof.constructRows, Sys2Proof.codecRows, Sys2Proof.aluRows],
    (Sys2Proof.encodeR3_mask 0x3C a b c).trans (by decide)⟩

theorem Sys2Proof.Laws.EncodedRow.shr (a b c : Sys2Proof.Reg) : Sys2Proof.Laws.EncodedRow.Statement (.shr a b c) :=
  ⟨⟨0x3D, "SHR", 0x3D000000, 0xFF007FFF, .r3 .shr⟩, by simp [Sys2Proof.opcodeTable, Sys2Proof.constructRows, Sys2Proof.codecRows, Sys2Proof.aluRows],
    (Sys2Proof.encodeR3_mask 0x3D a b c).trans (by decide)⟩

theorem Sys2Proof.Laws.EncodedRow.eq (a b c : Sys2Proof.Reg) : Sys2Proof.Laws.EncodedRow.Statement (.eq a b c) :=
  ⟨⟨0x40, "EQ", 0x40000000, 0xFF007FFF, .r3 .eq⟩, by simp [Sys2Proof.opcodeTable, Sys2Proof.constructRows, Sys2Proof.codecRows, Sys2Proof.aluRows],
    (Sys2Proof.encodeR3_mask 0x40 a b c).trans (by decide)⟩

theorem Sys2Proof.Laws.EncodedRow.ne (a b c : Sys2Proof.Reg) : Sys2Proof.Laws.EncodedRow.Statement (.ne a b c) :=
  ⟨⟨0x41, "NE", 0x41000000, 0xFF007FFF, .r3 .ne⟩, by simp [Sys2Proof.opcodeTable, Sys2Proof.constructRows, Sys2Proof.codecRows, Sys2Proof.aluRows],
    (Sys2Proof.encodeR3_mask 0x41 a b c).trans (by decide)⟩

theorem Sys2Proof.Laws.EncodedRow.lt (a b c : Sys2Proof.Reg) : Sys2Proof.Laws.EncodedRow.Statement (.lt a b c) :=
  ⟨⟨0x42, "LT", 0x42000000, 0xFF007FFF, .r3 .lt⟩, by simp [Sys2Proof.opcodeTable, Sys2Proof.constructRows, Sys2Proof.codecRows, Sys2Proof.aluRows],
    (Sys2Proof.encodeR3_mask 0x42 a b c).trans (by decide)⟩

theorem Sys2Proof.Laws.EncodedRow.le (a b c : Sys2Proof.Reg) : Sys2Proof.Laws.EncodedRow.Statement (.le a b c) :=
  ⟨⟨0x43, "LE", 0x43000000, 0xFF007FFF, .r3 .le⟩, by simp [Sys2Proof.opcodeTable, Sys2Proof.constructRows, Sys2Proof.codecRows, Sys2Proof.aluRows],
    (Sys2Proof.encodeR3_mask 0x43 a b c).trans (by decide)⟩

theorem Sys2Proof.Laws.EncodedRow.gt (a b c : Sys2Proof.Reg) : Sys2Proof.Laws.EncodedRow.Statement (.gt a b c) :=
  ⟨⟨0x44, "GT", 0x44000000, 0xFF007FFF, .r3 .gt⟩, by simp [Sys2Proof.opcodeTable, Sys2Proof.constructRows, Sys2Proof.codecRows, Sys2Proof.aluRows],
    (Sys2Proof.encodeR3_mask 0x44 a b c).trans (by decide)⟩

theorem Sys2Proof.Laws.EncodedRow.ge (a b c : Sys2Proof.Reg) : Sys2Proof.Laws.EncodedRow.Statement (.ge a b c) :=
  ⟨⟨0x45, "GE", 0x45000000, 0xFF007FFF, .r3 .ge⟩, by simp [Sys2Proof.opcodeTable, Sys2Proof.constructRows, Sys2Proof.codecRows, Sys2Proof.aluRows],
    (Sys2Proof.encodeR3_mask 0x45 a b c).trans (by decide)⟩
end

