-- ==== Sys2Proof/Tests/Slice0.lean ====
section
/-! SUPPORT. The model's own tests. The expected results are the spec's: 95_test_vectors.md, whose row each test
names, and the encoding of 30_encoding.md written out bit by bit. The theorems named `witness_` show, for each
statement with hypotheses, a concrete state and operands that meet them, at the boundary values of each clause. -/

namespace Sys2Proof.Tests

open Sys2Proof Sys2Proof.Machine

/-! ## Small states -/

/-- The reset state with some registers, DIN and bytes of WBUF set. -/
def block (vs : List (Reg × Word)) (din : Word) (bytes : Memory := []) : State :=
  { vs.foldl (fun s v => s.setReg v.1 v.2) State.reset with din := din, wbuf := bytes }

/-- Consecutive written bytes. -/
def written (a : Nat) (bs : List Byte) : Memory := (bs.zipIdx a).map fun p => (p.2, p.1)

def with62 (s : State) : State := { s with cfg := { s.cfg with notWidth := .w62 } }
def with6 (s : State) : State := { s with cfg := { s.cfg with ctzZero := .z6 } }
def withErr (e : ErrCode) (s : State) : State := s.setErr e
def withLen (l : BitVec 4) (s : State) : State := { s with status := { s.status with len := l } }
def withReq (r : BitVec 4) (s : State) : State := { s with status := { s.status with req := r } }
def faulted (c : Cause) (s : State) : State :=
  { s with status := { s.status with fault := true, fcause := c } }

/-- The host performs these operations next. -/
def queue (ops : List HostOp) (s : State) : State := { s with pending := ops }

/-- The next state of an outcome, `s` where there is none. -/
def nextOr (s : State) : Out → State
  | .next t => t
  | .fault _ => s
  | .refused _ => s

/-- The state after one step, after one command, after one host operation. -/
def stepped (s : State) : State := nextOr s (step s)
def ran (i : Instr) (s : State) : State := nextOr s (exec i s)
def performed (op : HostOp) (s : State) : State := nextOr s (perform op s)

/-! ## The checks of one step that issues a word -/

/-- It leaves `v` in register `r` and STATUS as given. -/
def gives (c : Command) (s : State) (r : Reg) (v st : Nat) : Bool :=
  match step (s.withFetchWord 32 c.toNat) with
  | .next t => t.val r == v && t.status.word.toNat == st
  | .fault _ => false
  | .refused _ => false

/-- It leaves these bytes in WBUF and STATUS as given. -/
def stores (c : Command) (s : State) (a : Nat) (bs : List Byte) (st : Nat) : Bool :=
  match step (s.withFetchWord 32 c.toNat) with
  | .next t => t.wbuf == written a bs && t.regs == s.regs && t.status.word.toNat == st
  | .fault _ => false
  | .refused _ => false

/-- It leaves every register and byte as it was, and STATUS as given. -/
def keeps (c : Command) (s : State) (st : Nat) : Bool :=
  match step (s.withFetchWord 32 c.toNat) with
  | .next t => t.wbuf == s.wbuf && t.regs == s.regs && t.status.word.toNat == st
  | .fault _ => false
  | .refused _ => false

/-! ## Well-formedness: one ill-formed term for each check -/

theorem test_wrBuf_address_refused :
    ¬ HostOp.WellFormed Config.defaults (.wrBuf 64 0) ∧ HostOp.WellFormed Config.defaults (.wrBuf 63 0) := by
  decide

theorem test_rdBuf_address_refused :
    ¬ HostOp.WellFormed Config.defaults (.rdBuf 64) ∧ HostOp.WellFormed Config.defaults (.rdBuf 63) := by
  decide

theorem test_register_name_refused :
    AsmOperand.wellFormed (.reg 8) = false ∧ AsmOperand.wellFormed (.reg 7) = true := by decide

theorem test_immediate_refused :
    AsmOperand.wellFormed (.imm 65536) = false ∧ AsmOperand.wellFormed (.imm 65535) = true := by decide

/-! ## Decoding: a word of every constructor, op, rd, rs1, rs2 and the low bits in turn -/

theorem test_decode_operand_entry :
    decode 0b00000001_101_00000_1010000000000001 = .ok (.ldi 5 40961)
    ∧ decode 0b00000010_000_000_000_000000000000000 = .ok (.ldmax 0)
    ∧ decode 0b00000100_011_000_000_000000000000000 = .ok (.cvtdU 3)
    ∧ decode 0b00000101_110_000_000_000000000000000 = .ok (.cvtdS 6)
    ∧ decode 0b00000110_001_000_000_000000000000000 = .ok (.cvtdF 1)
    ∧ decode 0b00001000_100_000_000_000000000000000 = .ok (.cvtcU 4)
    ∧ decode 0b00001001_111_000_000_000000000000000 = .ok (.cvtcS 7)
    ∧ decode 0b00001100_010_000_000_000000000000000 = .ok (.cvttU 2)
    ∧ decode 0b00001101_101_000_000_000000000000000 = .ok (.cvttS 5)
    ∧ decode 0b00010000_000_000_000_000000000000000 = .ok (.cvtxU 0)
    ∧ decode 0b00010001_011_000_000_000000000000000 = .ok (.cvtxS 3)
    ∧ decode 0b00010010_110_000_000_000000000000000 = .ok (.cvtxF 6) := by decide

theorem test_decode_classifier_and_codec :
    decode 0b00011000_001_110_000_000000000000000 = .ok (.bitw 1 6)
    ∧ decode 0b00011001_100_011_000_000000000000000 = .ok (.ebitw 4 3)
    ∧ decode 0b00011010_111_000_000_000000000000000 = .ok (.elen 7 0)
    ∧ decode 0b00011011_010_101_000_000000000000000 = .ok (.ctz 2 5)
    ∧ decode 0b00100000_101_010_100_000000000000000 = .ok (.dec 5 2 4)
    ∧ decode 0b00100001_000_111_011_000000000000000 = .ok (.enc 0 7 3)
    ∧ decode 0b00100010_011_000_000_000000000000000 = .ok (.mflen 3)
    ∧ decode 0b00100011_110_000_000_000000000000000 = .ok (.mfst 6) := by decide

theorem test_decode_arithmetic :
    decode 0b00110000_001_110_000_000000000000000 = .ok (.add 1 6 0)
    ∧ decode 0b00110001_100_011_111_000000000000000 = .ok (.sub 4 3 7)
    ∧ decode 0b00110010_111_000_110_000000000000000 = .ok (.mul 7 0 6)
    ∧ decode 0b00110011_010_101_101_000000000000000 = .ok (.div 2 5 5)
    ∧ decode 0b00110100_101_010_100_000000000000000 = .ok (.rem 5 2 4) := by decide

theorem test_decode_bitwise :
    decode 0b00111000_000_111_011_000000000000000 = .ok (.and 0 7 3)
    ∧ decode 0b00111001_011_100_010_000000000000000 = .ok (.or 3 4 2)
    ∧ decode 0b00111010_110_001_001_000000000000000 = .ok (.xor 6 1 1)
    ∧ decode 0b00111011_001_110_000_000000000000000 = .ok (.not 1 6)
    ∧ decode 0b00111100_100_011_111_000000000000000 = .ok (.shl 4 3 7)
    ∧ decode 0b00111101_111_000_110_000000000000000 = .ok (.shr 7 0 6) := by decide

theorem test_decode_comparison :
    decode 0b01000000_010_101_101_000000000000000 = .ok (.eq 2 5 5)
    ∧ decode 0b01000001_101_010_100_000000000000000 = .ok (.ne 5 2 4)
    ∧ decode 0b01000010_000_111_011_000000000000000 = .ok (.lt 0 7 3)
    ∧ decode 0b01000011_011_100_010_000000000000000 = .ok (.le 3 4 2)
    ∧ decode 0b01000100_110_001_001_000000000000000 = .ok (.gt 6 1 1)
    ∧ decode 0b01000101_001_110_000_000000000000000 = .ok (.ge 1 6 0) := by decide

/-- A command word is one 32-bit word: the table's numbering is its own (30_encoding.md R71). -/
theorem test_decodeTableWord :
    decodeTableWord 32 0x30AA0000 = some (.add 5 2 4) ∧ decodeTableWord 32 0 = none := by decide

/-! ## The assembler (30_encoding.md R81 to R83) -/

/-- R81's examples, with lower case, `_`, `0x` and a comment (`30_encoding.md`, table of R81). -/
theorem test_assembler_words :
    assemble Config.defaults "ADD V5, V2, V4\nenc v5,v6,v7 ; store\nBITW V1, V0\nMFLEN V3\nLDI V1, 0x1_0".toList
      = .ok [.issue 0x30AA0000, .issue 0x21BB8000, .issue 0x18200000, .issue 0x22600000,
          .issue 0x01200010] := by decide

/-- R82's directives; `-5` is P4's DIN. -/
theorem test_assembler_directives :
    assemble Config.defaults ".reset\n.din -5\n.buf 0: 40 25".toList
      = .ok [.reset, .wrDin 0xFFFFFFFFFFFFFFFB, .wrBuf 0 0x40, .wrBuf 1 0x25] := by decide

/-- R83: pseudo-instructions, and the refusals. -/
theorem test_assembler_pseudo :
    assemble Config.defaults "MOV V1, V2\nCLR V3\nLDMIN V3\nNOT62 V1, V2, V7".toList
      = .ok [.issue (encode (.or 1 2 2)), .issue (encode (.ldi 3 0)), .issue (encode (.ldi 3 0)),
          .issue (encode (.xor 1 2 7))] := by decide

theorem test_assembler_refuses :
    assemble Config.defaults "ADD V8, V0, V0".toList = .error .outOfRange
    ∧ assemble Config.defaults "LDI V0, 65536".toList = .error .outOfRange
    ∧ assemble Config.defaults "ADD V0, V0".toList = .error .operandCount := by decide

/-! ## One step (95_test_vectors.md) -/

/-- CN2: `LDI V7, 0xFFFF`. -/
theorem test_ldi :
    gives 0x01E0FFFF (block [] 0) 7 65535 0x0 = true := by decide

/-- CN3: `LDI V0, 0`. -/
theorem test_ldi_zero :
    gives 0x01000000 (block [(0, 99)] 0) 0 0 0x0 = true := by decide

/-- CN4: `LDMAX V7`. -/
theorem test_ldmax :
    gives 0x02E00000 (block [] 0) 7 4611686018427387903 0x0 = true := by decide

/-- CN6: `CVTD.U V0`. -/
theorem test_cvtdU :
    gives 0x04000000 (block [] 0x3FFFFFFFFFFFFFFF) 0 4611686018427387903 0x0 = true := by decide

/-- CN7: `CVTD.U V0`. -/
theorem test_cvtdU_range :
    keeps 0x04000000 (block [] 0x4000000000000000) 0x21000 = true := by decide

/-- CN11: `CVTD.S V0`. -/
theorem test_cvtdS :
    gives 0x05000000 (block [] 0x3FFFFFFFFFFFFFFF) 0 4611686018427387903 0x0 = true := by decide

/-- CN13: `CVTD.S V0`. -/
theorem test_cvtdS_negative :
    keeps 0x05000000 (block [] 0xFFFFFFFFFFFFFFFF) 0x21000 = true := by decide

/-- CN22: `CVTD.F V0`. -/
theorem test_cvtdF :
    gives 0x06000000 (block [] 0x43CFFFFFFFFFFFFF) 0 4611686018427387392 0x0 = true := by decide

/-- CN18: `CVTD.F V0`. -/
theorem test_cvtdF_invalid :
    keeps 0x06000000 (block [] 0xBFF0000000000000) 0x61000 = true := by decide

/-- CN29: `CVTC.U V1`. -/
theorem test_cvtcU :
    gives 0x08200000 (block [] 0x4000000000000000) 1 4611686018427387903 0x0 = true := by decide

/-- CN33: `CVTC.S V2`. -/
theorem test_cvtcS :
    gives 0x09400000 (block [] 0x8000000000000000) 2 0 0x0 = true := by decide

/-- CN34: `CVTC.S V2`. -/
theorem test_cvtcS_above :
    gives 0x09400000 (block [] 0x7FFFFFFFFFFFFFFF) 2 4611686018427387903 0x0 = true := by decide

/-- CN39: `CVTT.U V3`. -/
theorem test_cvttU :
    gives 0x0C600000 (block [] 0xC000000000000025) 3 37 0x0 = true := by decide

/-- CN41: `CVTT.S V4`. -/
theorem test_cvttS :
    gives 0x0D800000 (block [] 0xFFFFFFFFFFFFFFFB) 4 4611686018427387899 0x0 = true := by decide

/-- CN46: `CVTX.U V0`. -/
theorem test_cvtxU :
    gives 0x10000000 (block [] 0x3FFFFFFFFFFFFFFF) 0 4611686018427387903 0x0 = true := by decide

/-- CN48: `CVTX.U V0`. -/
theorem test_cvtxU_range :
    keeps 0x10000000 (block [] 0xFFFFFFFFFFFFFFFF) 0x21000 = true := by decide

/-- CN52: `CVTX.S V5`. -/
theorem test_cvtxS :
    gives 0x11A00000 (block [(5, 77)] 0x3FFFFFFFFFFFFFFF) 5 4611686018427387903 0x0 = true := by decide

/-- CN49: `CVTX.S V5`. -/
theorem test_cvtxS_negative :
    keeps 0x11A00000 (block [(5, 77)] 0xFFFFFFFFFFFFFFFB) 0x4 = true := by decide

/-- CN59: `CVTX.F V6`. -/
theorem test_cvtxF :
    gives 0x12C00000 (block [(6, 77)] 0x43CFFFFFFFFFFFFF) 6 4611686018427387392 0x0 = true := by decide

/-- CN57: `CVTX.F V6`. -/
theorem test_cvtxF_fraction :
    keeps 0x12C00000 (block [(6, 77)] 0x3FE0000000000000) 0x4 = true := by decide

/-- CL9: `BITW V1, V0`. -/
theorem test_bitw :
    gives 0x18200000 (block [(0, 16384)] 0) 1 30 0x0 = true := by decide

/-- CL41: `BITW V0, V0`. -/
theorem test_bitw_same_register :
    gives 0x18000000 (block [(0, 16384)] 0) 0 30 0x0 = true := by decide

/-- CL19: `EBITW V2, V0`. -/
theorem test_ebitw :
    gives 0x19400000 (block [(0, 16383)] 0) 2 16 0x0 = true := by decide

/-- CL30: `ELEN V3, V0`. -/
theorem test_elen :
    gives 0x1A600000 (block [(0, 1073741824)] 0) 3 8 0x0 = true := by decide

/-- CL37: `CTZ V4, V0`. -/
theorem test_ctz :
    gives 0x1B800000 (block [(0, 2305843009213693952)] 0) 4 61 0x0 = true := by decide

/-- CL40: `CTZ V4, V0`. -/
theorem test_ctz_zero :
    gives 0x1B800000 (with6 (block [(0, 0)] 0)) 4 6 0x0 = true := by decide

/-- S3: `DEC V3, V1, V2`. -/
theorem test_dec :
    gives 0x20650000 (block [(1, 32), (2, 8)] 0 (written 32 [0xC2, 0x19, 0x7C, 0x5E, 0xFF, 0x14, 0xE8, 0x8C])) 3 151288809941952652 0x80 = true := by decide

/-- CD5: `DEC V2, V0, V1`. -/
theorem test_dec_too_few :
    keeps 0x20408000 (block [(0, 0), (1, 3)] 0 (written 0 [0x80])) 0x402 = true := by decide

/-- CD20: `ENC V0, V1, V2`. -/
theorem test_enc :
    stores 0x21050000 (block [(0, 16383), (1, 10), (2, 4)] 0) 10 [0x7F, 0xFF] 0x20 = true := by decide

/-- CD22: `ENC V0, V1, V2`. -/
theorem test_enc_too_few :
    keeps 0x21050000 (block [(0, 1073741824), (1, 10), (2, 4)] 0) 0x802 = true := by decide

/-- CD29: `MFLEN V3`. -/
theorem test_mflen :
    gives 0x22600000 (withLen 8 (block [] 0)) 3 8 0x80 = true := by decide

/-- CD30: `MFST V0`. -/
theorem test_mfst :
    gives 0x23000000 (withReq 8 (withErr .bufferTooSmall (block [] 0))) 0 2050 0x802 = true := by decide

/-- AR1: `ADD V2, V0, V1`. -/
theorem test_add :
    gives 0x30408000 (block [(0, 37), (1, 151288809941952652)] 0) 2 151288809941952689 0x0 = true := by decide

/-- AR3: `ADD V2, V0, V1`. -/
theorem test_add_range :
    keeps 0x30408000 (block [(0, 4611686018427387903), (1, 1)] 0) 0x21000 = true := by decide

/-- AR10: `SUB V2, V0, V1`. -/
theorem test_sub :
    gives 0x31408000 (block [(0, 4611686018427387903), (1, 0)] 0) 2 4611686018427387903 0x0 = true := by decide

/-- AR18: `MUL V2, V0, V1`. -/
theorem test_mul :
    gives 0x32408000 (block [(0, 2147483647), (1, 2147483648)] 0) 2 4611686016279904256 0x0 = true := by decide

/-- AR17: `MUL V2, V0, V1`. -/
theorem test_mul_overflow :
    keeps 0x32408000 (block [(0, 4294967296), (1, 4294967296)] 0) 0x31000 = true := by decide

/-- AR22: `DIV V2, V0, V1`. -/
theorem test_div :
    gives 0x33408000 (block [(0, 100), (1, 7)] 0) 2 14 0x0 = true := by decide

/-- AR28: `DIV V2, V0, V1`. -/
theorem test_div_zero :
    keeps 0x33408000 (block [(0, 5), (1, 0)] 0) 0x11000 = true := by decide

/-- AR31: `REM V3, V0, V1`. -/
theorem test_rem :
    gives 0x34608000 (block [(0, 4611686018427387903), (1, 2)] 0) 3 1 0x0 = true := by decide

/-- AR34: `REM V3, V0, V1`. -/
theorem test_rem_zero :
    keeps 0x34608000 (block [(0, 5), (1, 0)] 0) 0x11000 = true := by decide

/-- BW1: `AND V2, V0, V1`. -/
theorem test_and :
    gives 0x38408000 (block [(0, 60), (1, 15)] 0) 2 12 0x0 = true := by decide

/-- BW4: `OR V2, V0, V1`. -/
theorem test_or :
    gives 0x39408000 (block [(0, 60), (1, 15)] 0) 2 63 0x0 = true := by decide

/-- BW8: `XOR V2, V0, V1`. -/
theorem test_xor :
    gives 0x3A408000 (block [(0, 151288809941952652), (1, 4611686018427387903)] 0) 2 4460397208485435251 0x0 = true := by decide

/-- BW11: `NOT V1, V0`. -/
theorem test_not_range :
    keeps 0x3B200000 (block [(0, 0)] 0) 0x21000 = true := by decide

/-- BW15: `NOT V1, V0`. -/
theorem test_not_62 :
    gives 0x3B200000 (with62 (block [(0, 60)] 0)) 1 4611686018427387843 0x0 = true := by decide

/-- BW21: `SHL V2, V0, V1`. -/
theorem test_shl :
    gives 0x3C408000 (block [(0, 4), (1, 62)] 0) 2 0 0x0 = true := by decide

/-- BW20: `SHL V2, V0, V1`. -/
theorem test_shl_range :
    keeps 0x3C408000 (block [(0, 4611686018427387903), (1, 1)] 0) 0x21000 = true := by decide

/-- BW27: `SHR V2, V0, V1`. -/
theorem test_shr :
    gives 0x3D408000 (block [(0, 4611686018427387903), (1, 61)] 0) 2 1 0x0 = true := by decide

/-- BW32: `SHR V2, V0, V1`. -/
theorem test_shr_64 :
    gives 0x3D408000 (block [(0, 4611686018427387903), (1, 4611686018427387903)] 0) 2 0 0x0 = true := by decide

/-- CP1: `EQ V0, V0, V1`. -/
theorem test_eq :
    gives 0x40008000 (block [(0, 5), (1, 5)] 0) 0 1 0x0 = true := by decide

/-- CP2: `LT V1, V0, V1`. -/
theorem test_lt :
    gives 0x42208000 (block [(0, 5), (1, 6)] 0) 1 1 0x0 = true := by decide

/-- EN1: `all zeros`. -/
theorem test_illegal_zero :
    keeps 0x00000000 (block [] 0) 0x41000 = true := by decide

/-- EN17: `DEC V2,V0,V1 + bit 0`. -/
theorem test_illegal_must_be_zero :
    keeps 0x20408001 (block [] 0) 0x41000 = true := by decide

/-- PR8: `LDI V1, 16`. -/
theorem test_faulted_ignores :
    keeps 0x01200010 (faulted .divZero (block [] 0)) 0x11000 = true := by decide

/-- PR11: `SUB V2, V0, V1`. -/
theorem test_fault_keeps_err :
    keeps 0x31408000 (withErr .notExact (block [(0, 0), (1, 1)] 0)) 0x31004 = true := by decide

/-- 95 §2.6: `NE V2, V0, V1`. -/
theorem test_ne :
    gives 0x41408000 (block [(0, 37), (1, 37)] 0) 2 0 0 = true := by decide

/-- 95 §2.6: `LE V2, V0, V1`. -/
theorem test_le :
    gives 0x43408000 (block [(0, 16384), (1, 16383)] 0) 2 0 0 = true := by decide

/-- 95 §2.6: `GT V2, V0, V1`. -/
theorem test_gt :
    gives 0x44408000 (block [(0, 64), (1, 63)] 0) 2 1 0 = true := by decide

/-- 95 §2.6: `GE V2, V0, V1`. -/
theorem test_ge :
    gives 0x45408000 (block [(0, 63), (1, 64)] 0) 2 0 0 = true := by decide

/-- RS5: the host's ports act while FAULT = 1. -/
theorem test_ports_while_faulted :
    (stepped (stepped (queue [.wrBuf 0 0x25, .rdBuf 0] (faulted .illegal (block [] 0))))).resp
      = some (.byte 0x25) := by decide

/-- RS6: RESET leaves the faulted state. -/
theorem test_reset_leaves_fault :
    (stepped (queue [.reset] (faulted .illegal (block [(1, 5)] 7)))) = State.reset := by decide

/-- RS8: after RESET a byte written before it is unwritten: reading it draws. -/
theorem test_reset_forgets_bytes :
    (stepped (queue [.reset] (block [] 0 (written 5 [0x3F])))).byteAt 5 = none := by decide

/-! ## Witnesses: the hypotheses of the statements can be met -/

/-! ### Encoding -/

theorem witness_EncodeInvertsDecode :
    decode 0x01000000 = .ok (.ldi 0 0) ∧ decode 0x45FF8000 = .ok (.ge 7 7 7) := by decide

theorem witness_LegalWordMatchesExactlyOneRow :
    ∃ r ∈ opcodeTable, (0x45FF8000 : Command) &&& r.mask = r.matchWord := by decide

theorem witness_UnassignedOpcodesAreIllegal :
    isUnassigned ((0x00ABCDEF : Command).extractLsb' 24 8) = true
    ∧ isUnassigned ((0x13000000 : Command).extractLsb' 24 8) = true
    ∧ isUnassigned ((0x46000000 : Command).extractLsb' 24 8) = true
    ∧ isUnassigned ((0xFFFFFFFF : Command).extractLsb' 24 8) = true := by decide

theorem witness_ConstructionOpcodesFormAGrid :
    (0x07000000 : Command).toNat / 2 ^ 24 = 0x04 + 4 * 0 + 3
    ∧ (0x13FFFFFF : Command).toNat / 2 ^ 24 = 0x04 + 4 * 3 + 3
    ∧ (0x0A000000 : Command).toNat / 2 ^ 24 = 0x04 + 4 * 1 + 2
    ∧ (0x0E000000 : Command).toNat / 2 ^ 24 = 0x04 + 4 * 2 + 2 := by decide

/-! ### The step and the ports -/

theorem witness_StepRunsTheDecodedCommand :
    (queue [.issue 0x30AA0000, .rdStatus] (block [(2, 7)] 0)).pending
      = HostOp.issue 0x30AA0000 :: [.rdStatus]
    ∧ (queue [.issue 0x30AA0000, .rdStatus] (block [(2, 7)] 0)).status.fault = false
    ∧ decode 0x30AA0000 = .ok (.add 5 2 4) := by decide

theorem witness_IllegalWordRaisesIllegal :
    (queue [.issue 0x01010000] State.reset).pending = HostOp.issue 0x01010000 :: []
    ∧ (queue [.issue 0x01010000] State.reset).status.fault = false
    ∧ legal 0x01010000 = false ∧ legal 0 = false ∧ legal 0xFFFFFFFF = false := by decide

theorem witness_FaultedBlockIgnoresCommands_issue :
    (queue [.issue 0x01200010] (faulted .divZero (block [] 0))).status.fault = true
    ∧ (queue [.issue 0x01200010] (faulted .divZero (block [] 0))).pending
        = HostOp.issue 0x01200010 :: [] := by decide

theorem witness_FaultedBlockIgnoresCommands_others :
    HostOp.rdStatus ≠ .reset
    ∧ perform .rdStatus (faulted .range State.reset)
        = .next (performed .rdStatus (faulted .range State.reset))
    ∧ perform .reset (faulted .range State.reset)
        = .next (performed .reset (faulted .range State.reset))
    ∧ HostOp.wrBuf 63 1 ≠ .reset ∧ HostOp.wrBuf 63 1 ≠ .rdStatus ∧ (∀ c, HostOp.wrBuf 63 1 ≠ .issue c)
    ∧ perform (.wrBuf 63 1) (faulted .range State.reset)
        = .next (performed (.wrBuf 63 1) (faulted .range State.reset)) :=
  ⟨by decide, rfl, rfl, by decide, by decide, (fun _ h => HostOp.noConfusion h), rfl⟩

theorem witness_HostPortsActAsListed_din :
    (queue [.wrDin 5] (block [] 0)).pending = HostOp.wrDin 5 :: [] := by decide

theorem witness_HostPortsActAsListed_wrBuf :
    (queue [.wrBuf 63 5] (block [] 0)).pending = HostOp.wrBuf 63 5 :: []
    ∧ 63 < (block [] 0).cfg.wbufSize ∧ 0 < (block [] 0).cfg.wbufSize := by decide

theorem witness_HostPortsActAsListed_rdBuf :
    (queue [.rdBuf 63] (block [] 0 (written 63 [5]))).pending = HostOp.rdBuf 63 :: []
    ∧ 63 < (block [] 0).cfg.wbufSize ∧ (block [] 0 (written 63 [5])).byteAt 63 = some 5 := by decide

theorem witness_HostPortsActAsListed_reads :
    (queue [.rdV 7] (block [(7, 9)] 0)).pending = HostOp.rdV 7 :: []
    ∧ (queue [.rdStatus] (faulted .range (block [] 0))).pending = HostOp.rdStatus :: [] := by decide

theorem witness_ResetPutsEveryRegisterAtZero :
    (queue [.reset, .rdStatus] (faulted .illegal (block [(3, 9)] 8 (written 0 [1])))).pending
      = HostOp.reset :: [.rdStatus] := by decide

theorem witness_UnwrittenByteIsADraw :
    (block [] 0 (written 0 [1])).byteAt 63 = none ∧ 63 < (block [] 0).cfg.wbufSize
    ∧ (queue [.rdBuf 63, .rdBuf 63] (block [] 0 (written 0 [1]))).pending
        = HostOp.rdBuf 63 :: HostOp.rdBuf 63 :: [] := by decide

theorem witness_ReadReturnsTheLastByteWritten :
    63 < (block [] 0 (written 0 [1])).cfg.wbufSize ∧ 0 < (block [] 0 (written 0 [1])).cfg.wbufSize
    ∧ ((0 : Nat) ≠ 63 → (block [] 0 (written 0 [1])).byteAt 0 = some 1)
    ∧ ((63 : Nat) ≠ 63 → (block [] 0 (written 0 [1])).byteAt 63 = some 1)
    ∧ (queue [.wrBuf 63 5, .rdBuf 0, .rdBuf 0] (block [] 0 (written 0 [1]))).pending
        = HostOp.wrBuf 63 5 :: HostOp.rdBuf 0 :: HostOp.rdBuf 0 :: []
    ∧ (queue [.wrBuf 63 5, .rdBuf 63, .rdBuf 63] (block [] 0 (written 0 [1]))).pending
        = HostOp.wrBuf 63 5 :: HostOp.rdBuf 63 :: HostOp.rdBuf 63 :: [] := by decide

theorem witness_IdleBlockHoldsItsState : (block [(0, 3)] 9).pending = [] := by decide

theorem witness_OnlyAbsentBytesStopTheModel :
    (queue [.rdBuf 64] (block [] 0)).pending = HostOp.rdBuf 64 :: []
    ∧ (queue [.wrBuf 64 1] (block [] 0)).pending = HostOp.wrBuf 64 1 :: []
    ∧ (block [] 0).cfg.wbufSize ≤ 64
    ∧ (queue [.rdV 0] (block [] 0)).pending = HostOp.rdV 0 :: [] := by decide

theorem witness_RegistersChangeOnlyThroughCommands :
    perform (.wrDin 5) (block [(0, 3)] 0) = .next (performed (.wrDin 5) (block [(0, 3)] 0))
    ∧ perform (.issue 0x01200010) (block [(0, 3)] 0)
        = .next (performed (.issue 0x01200010) (block [(0, 3)] 0))
    ∧ (performed (.issue 0x01200010) (block [(0, 3)] 0)).reg 1 ≠ (block [(0, 3)] 0).reg 1 :=
  ⟨rfl, rfl, by decide⟩

theorem witness_DinIsWrittenOnlyByTheHost :
    step (queue [.wrDin 5] (block [] 0)) = .next (stepped (queue [.wrDin 5] (block [] 0)))
    ∧ (stepped (queue [.wrDin 5] (block [] 0))).din ≠ (block [] 0).din
    ∧ step (queue [.reset] (block [] 8)) = .next (stepped (queue [.reset] (block [] 8)))
    ∧ (stepped (queue [.reset] (block [] 8))).din ≠ (block [] 8).din :=
  ⟨rfl, by decide, rfl, by decide⟩

/-! ### Invariants -/

/-- A block with MAX in a register, a byte at WBUF's last address, an error recorded, and a command to come. -/
def busy : State :=
  queue [.issue 0x30408000]
    (withReq 8 (withErr .bufferTooSmall (block [(0, 4611686018427387903), (1, 1)] 7 (written 63 [5]))))

theorem witness_StepKeepsTheInvariant :
    BlockInv busy ∧ step busy = .next (stepped busy) :=
  ⟨⟨by unfold ValuesInRange; decide, by decide, by decide⟩, rfl⟩

theorem witness_RegistersStayInRange :
    (∀ r : Reg, busy.val r ≤ 2 ^ 62 - 1) ∧ step busy = .next (stepped busy) := ⟨by decide, rfl⟩

theorem witness_ParametersNeverChange : step busy = .next (stepped busy) := rfl

/-! ### All commands -/

theorem witness_CommandFrame :
    exec (.add 2 0 1) (block [(0, 5), (1, 6)] 0) = .next (ran (.add 2 0 1) (block [(0, 5), (1, 6)] 0))
    ∧ destination (.add 2 0 1) ≠ some 3
    ∧ exec (.enc 0 1 2) (block [(0, 64), (1, 10), (2, 2)] 0)
        = .next (ran (.enc 0 1 2) (block [(0, 64), (1, 10), (2, 2)] 0))
    ∧ 9 < (block [(0, 64), (1, 10), (2, 2)] 0).val 1
    ∧ (block [(0, 64), (1, 10), (2, 2)] 0).val 1 + elen ((block [(0, 64), (1, 10), (2, 2)] 0).val 0) ≤ 12 :=
  ⟨rfl, by decide, rfl, by decide, by decide⟩

theorem witness_StatusFieldsWrittenByGroup :
    exec (.ldi 0 1) State.reset = .next (ran (.ldi 0 1) State.reset)
    ∧ (ran (.ldi 0 1) State.reset).status.fault = false
    ∧ exec (.mfst 0) State.reset = .next (ran (.mfst 0) State.reset)
    ∧ (ran (.mfst 0) State.reset).status.fault = false
    ∧ exec (.dec 0 1 2) State.reset = .next (ran (.dec 0 1 2) State.reset)
    ∧ (ran (.dec 0 1 2) State.reset).status.fault = false := ⟨rfl, by decide, rfl, by decide, rfl, by decide⟩

theorem witness_StatusFieldsWrittenByGroup_faults :
    State.reset.status.fault = false
    ∧ exec (.div 0 1 2) State.reset = .next (ran (.div 0 1 2) State.reset)
    ∧ (ran (.div 0 1 2) State.reset).status.fault = true
    ∧ (faulted .range State.reset).status.fault = true
    ∧ perform (.issue 0x01200010) (faulted .range State.reset)
        = .next (performed (.issue 0x01200010) (faulted .range State.reset)) :=
  ⟨by decide, rfl, by decide, by decide, rfl⟩

theorem witness_FaultingCommandChangesOnlyTheLatch :
    State.reset.status.fault = false
    ∧ exec (.div 0 1 2) State.reset = .next (ran (.div 0 1 2) State.reset)
    ∧ (ran (.div 0 1 2) State.reset).status.fault = true := ⟨by decide, rfl, by decide⟩

theorem witness_FaultCausesAreThoseListed :
    ValuesInRange State.reset ∧ State.reset.status.fault = false
    ∧ exec (.not 0 1) State.reset = .next (ran (.not 0 1) State.reset)
    ∧ (ran (.not 0 1) State.reset).status.fault = true :=
  ⟨by unfold ValuesInRange; decide, by decide, rfl, by decide⟩

theorem witness_ReportedErrorsAreThoseListed :
    (block [] 0xFFFFFFFFFFFFFFFF).status.fault = false ∧ statusGroup (.cvtxS 0) ≠ .unchanged
    ∧ exec (.cvtxS 0) (block [] 0xFFFFFFFFFFFFFFFF) = .next (ran (.cvtxS 0) (block [] 0xFFFFFFFFFFFFFFFF))
    ∧ (ran (.cvtxS 0) (block [] 0xFFFFFFFFFFFFFFFF)).status.fault = false
    ∧ (ran (.cvtxS 0) (block [] 0xFFFFFFFFFFFFFFFF)).status.err ≠ .ok :=
  ⟨by decide, by decide, rfl, by decide, by decide⟩

/-! ### Operand entry -/

theorem witness_UnsignedSourceStoredOrRange :
    (block [] 0x3FFFFFFFFFFFFFFF).din.toNat ≤ 2 ^ 62 - 1
    ∧ 2 ^ 62 ≤ (block [] 0x4000000000000000).din.toNat := by decide

theorem witness_SignedDirectStoredOrRange :
    (0 ≤ (block [] 0).din.toInt ∧ (block [] 0).din.toInt ≤ 2 ^ 62 - 1)
    ∧ (0 ≤ (block [] 0x3FFFFFFFFFFFFFFF).din.toInt ∧ (block [] 0x3FFFFFFFFFFFFFFF).din.toInt ≤ 2 ^ 62 - 1)
    ∧ (block [] 0xFFFFFFFFFFFFFFFF).din.toInt < 0 ∧ (block [] 0x8000000000000000).din.toInt < 0
    ∧ 2 ^ 62 ≤ (block [] 0x4000000000000000).din.toInt := by decide

/-- The same sources as `witness_SignedDirectStoredOrRange`, for CVTX.S. -/
theorem witness_SignedExactStoredOrReported :
    (0 ≤ (block [] 0x3FFFFFFFFFFFFFFF).din.toInt ∧ (block [] 0x3FFFFFFFFFFFFFFF).din.toInt ≤ 2 ^ 62 - 1)
    ∧ (block [] 0xFFFFFFFFFFFFFFFB).din.toInt < 0
    ∧ 2 ^ 62 ≤ (block [] 0x7FFFFFFFFFFFFFFF).din.toInt := by decide

theorem witness_FloatDirectTruncates_none :
    binary64Value (block [] 0x7FF8000000000000).din = none
    ∧ binary64Value (block [] 0xFFF0000000000000).din = none := by
  constructor <;> simp [binary64Value, block]

theorem witness_FloatDirectTruncates_invalid :
    binary64Value (block [] 0xBFF0000000000000).din = some (-1)
    ∧ binary64Value (block [] 0x43F0000000000000).din = some (2 ^ 64) := by
  constructor <;> simp [binary64Value, block]
  norm_num

theorem witness_FloatDirectTruncates_values :
    binary64Value (block [] 0x43D0000000000000).din = some (2 ^ 62)
    ∧ binary64Value (block [] 0x43EFFFFFFFFFFFFF).din = some (2 ^ 64 - 2048)
    ∧ binary64Value (block [] 0xBFE0000000000000).din = some (-1 / 2)
    ∧ binary64Value (block [] 0x8000000000000000).din = some 0
    ∧ binary64Value (block [] 0x43CFFFFFFFFFFFFF).din = some (2 ^ 62 - 512) := by
  refine ⟨?_, ?_, ?_, ?_, ?_⟩ <;> simp [binary64Value, block] <;> norm_num

theorem witness_FloatExactStoredOrReported_integer :
    binary64Value (block [] 0x43CFFFFFFFFFFFFF).din = some ((4611686018427387392 : Nat) : ℚ)
    ∧ binary64Value (block [] 0x43D0000000000000).din = some ((2 ^ 62 : Nat) : ℚ) := by
  constructor <;> simp [binary64Value, block] <;> norm_num

theorem witness_FloatExactStoredOrReported_none :
    ∀ n : Nat, n < 2 ^ 64 → binary64Value (block [] 0x43F0000000000000).din ≠ some (n : ℚ) := by
  intro n hn h
  rw [witness_FloatDirectTruncates_invalid.2] at h
  have : (2 ^ 64 : ℚ) = (n : ℚ) := Option.some.inj h
  have : 2 ^ 64 = n := by exact_mod_cast this
  omega

/-! ### Classifier -/

theorem witness_ClassifierGivesTheMinimumClass :
    (block [(0, 4611686018427387903)] 0).val 0 ≤ 2 ^ 62 - 1 ∧ (block [(0, 63)] 0).val 0 ≤ 2 ^ 62 - 1 := by
  decide

theorem witness_CtzCountsTrailingZeros :
    ((block [] 0).val 0 = 0 ∧ (block [] 0).cfg.ctzZero = .z64)
    ∧ ((with6 (block [] 0)).val 0 = 0 ∧ (with6 (block [] 0)).cfg.ctzZero = .z6)
    ∧ (block [(0, 2305843009213693952)] 0).val 0 ≠ 0 := by decide

/-! ### Codec -/

theorem witness_DecDecodesItsRegion_stops :
    ((block [(0, 63), (1, 2)] 0).cfg.wbufSize < (block [(0, 63), (1, 2)] 0).val 0 + (block [(0, 63), (1, 2)] 0).val 1)
    ∧ ((block [(0, 64)] 0).val 0 + (block [(0, 64)] 0).val 1 ≤ (block [(0, 64)] 0).cfg.wbufSize
        ∧ (block [(0, 64)] 0).val 1 = 0) := by decide

/-- CD5: too few bytes for the length declared. -/
theorem witness_DecDecodesItsRegion_short :
    (block [(1, 3)] 0 (written 0 [0x80])).val 0 + (block [(1, 3)] 0 (written 0 [0x80])).val 1
        ≤ (block [(1, 3)] 0 (written 0 [0x80])).cfg.wbufSize
    ∧ 1 ≤ (block [(1, 3)] 0 (written 0 [0x80])).val 1
    ∧ (block [(1, 3)] 0 (written 0 [0x80])).byteAt ((block [(1, 3)] 0 (written 0 [0x80])).val 0) = some 0x80
    ∧ (block [(1, 3)] 0 (written 0 [0x80])).val 1 < 2 ^ ((0x80 : Byte).toNat / 64) := by decide

/-- CD9, one byte at WBUF's last address; and four bytes of which the first two are written. -/
theorem witness_DecDecodesItsRegion_runs :
    ((block [(0, 63), (1, 1)] 0 (written 63 [5])).val 0 + (block [(0, 63), (1, 1)] 0 (written 63 [5])).val 1
        ≤ (block [(0, 63), (1, 1)] 0 (written 63 [5])).cfg.wbufSize
      ∧ 1 ≤ (block [(0, 63), (1, 1)] 0 (written 63 [5])).val 1
      ∧ (block [(0, 63), (1, 1)] 0 (written 63 [5])).byteAt
          ((block [(0, 63), (1, 1)] 0 (written 63 [5])).val 0) = some 5
      ∧ 2 ^ ((5 : Byte).toNat / 64) ≤ (block [(0, 63), (1, 1)] 0 (written 63 [5])).val 1)
    ∧ ((block [(1, 4)] 0 (written 0 [0x9D, 0x7F])).byteAt ((block [(1, 4)] 0 (written 0 [0x9D, 0x7F])).val 0)
          = some 0x9D
      ∧ 2 ^ ((0x9D : Byte).toNat / 64) ≤ (block [(1, 4)] 0 (written 0 [0x9D, 0x7F])).val 1
      ∧ (block [(1, 4)] 0 (written 0 [0x9D, 0x7F])).byteAt 2 = none) := by decide

/-- The largest value of each length, the region ending at WBUF's last byte. -/
theorem witness_DecAcceptsEveryLength :
    ∀ lp ∈ wireLengths,
      2 ^ (8 * lp.1 - 2) - 1 < 2 ^ (8 * lp.1 - 2)
      ∧ 64 - lp.1 + lp.1 ≤ (block [] 0).cfg.wbufSize ∧ lp.1 ≤ lp.1
      ∧ ∀ (i : Nat) (h : i < (bigEndian (lp.2 * 2 ^ (8 * lp.1 - 2) + (2 ^ (8 * lp.1 - 2) - 1)) lp.1).length),
          (block [(0, BitVec.ofNat 64 (64 - lp.1)), (1, BitVec.ofNat 64 lp.1)] 0
            (written (64 - lp.1) (bigEndian (lp.2 * 2 ^ (8 * lp.1 - 2) + (2 ^ (8 * lp.1 - 2) - 1)) lp.1))).byteAt
              (64 - lp.1 + i)
            = some (bigEndian (lp.2 * 2 ^ (8 * lp.1 - 2) + (2 ^ (8 * lp.1 - 2) - 1)) lp.1)[i] := by decide

/-- With 8 bytes at hand the byte drawn declares a length that fits; with 1, it may not. -/
theorem witness_DecOfUnwrittenBytesDraws :
    ((block [(0, 56), (1, 8)] 0).val 0 + (block [(0, 56), (1, 8)] 0).val 1 ≤ (block [(0, 56), (1, 8)] 0).cfg.wbufSize
      ∧ 1 ≤ (block [(0, 56), (1, 8)] 0).val 1
      ∧ (block [(0, 56), (1, 8)] 0).byteAt ((block [(0, 56), (1, 8)] 0).val 0) = none)
    ∧ ∀ b : Byte, 2 ^ (b.toNat / 64) ≤ (block [(0, 56), (1, 8)] 0).val 1 := by
  refine ⟨by decide, fun b => ?_⟩
  have h : b.toNat / 64 ≤ 3 := by have := b.isLt; omega
  exact (Nat.pow_le_pow_right (by decide) h).trans (by decide)

theorem witness_DecIsIdempotent :
    (2 : Reg) ≠ 0 ∧ (2 : Reg) ≠ 1
    ∧ (∀ a < 2, 0 ≤ a → (block [(1, 2)] 0 (written 0 [0x40, 0x25])).byteAt a ≠ none)
    ∧ (block [(1, 2)] 0 (written 0 [0x40, 0x25])).val 0 + (block [(1, 2)] 0 (written 0 [0x40, 0x25])).val 1 = 2
    ∧ exec (.dec 2 0 1) (block [(1, 2)] 0 (written 0 [0x40, 0x25]))
        = .next (ran (.dec 2 0 1) (block [(1, 2)] 0 (written 0 [0x40, 0x25]))) :=
  ⟨by decide, by decide, by decide, by decide, rfl⟩

theorem witness_EncEncodesItsValue_region :
    (block [(0, 5), (1, 60), (2, 8)] 0).cfg.wbufSize
      < (block [(0, 5), (1, 60), (2, 8)] 0).val 1 + (block [(0, 5), (1, 60), (2, 8)] 0).val 2 := by decide

/-- MAX at WBUF's last eight bytes, and with one byte too few; 63 and 64 on each side of a class's bound. -/
theorem witness_EncEncodesItsValue :
    (8, 3) ∈ wireLengths
    ∧ (block [(0, 4611686018427387903), (1, 56), (2, 8)] 0).val 0 < 2 ^ (8 * 8 - 2)
    ∧ (∀ lq ∈ wireLengths, (block [(0, 4611686018427387903), (1, 56), (2, 8)] 0).val 0 < 2 ^ (8 * lq.1 - 2) →
        8 ≤ lq.1)
    ∧ (block [(0, 4611686018427387903), (1, 56), (2, 8)] 0).val 1
        + (block [(0, 4611686018427387903), (1, 56), (2, 8)] 0).val 2
        ≤ (block [(0, 4611686018427387903), (1, 56), (2, 8)] 0).cfg.wbufSize
    ∧ 8 ≤ (block [(0, 4611686018427387903), (1, 56), (2, 8)] 0).val 2
    ∧ (block [(0, 4611686018427387903), (1, 56), (2, 7)] 0).val 2 < 8
    ∧ (1, 0) ∈ wireLengths ∧ (block [(0, 63)] 0).val 0 < 2 ^ (8 * 1 - 2)
    ∧ (2, 1) ∈ wireLengths ∧ (block [(0, 64)] 0).val 0 < 2 ^ (8 * 2 - 2)
    ∧ (∀ lq ∈ wireLengths, (block [(0, 64)] 0).val 0 < 2 ^ (8 * lq.1 - 2) → 2 ≤ lq.1) := by decide

/-- MAX encoded at offset 56, then decoded there. -/
def encoded : State := ran (.enc 0 1 2) (block [(0, 4611686018427387903), (1, 56), (2, 8)] 0)

theorem witness_EncThenDecGivesTheValueBack :
    (block [(0, 4611686018427387903), (1, 56), (2, 8)] 0).val 0 ≤ 2 ^ 62 - 1
    ∧ (block [(0, 4611686018427387903), (1, 56), (2, 8)] 0).val 1
        + (block [(0, 4611686018427387903), (1, 56), (2, 8)] 0).val 2
        ≤ (block [(0, 4611686018427387903), (1, 56), (2, 8)] 0).cfg.wbufSize
    ∧ elen ((block [(0, 4611686018427387903), (1, 56), (2, 8)] 0).val 0)
        ≤ (block [(0, 4611686018427387903), (1, 56), (2, 8)] 0).val 2
    ∧ exec (.enc 0 1 2) (block [(0, 4611686018427387903), (1, 56), (2, 8)] 0) = .next encoded
    ∧ (∀ a, encoded.byteAt a = encoded.byteAt a) ∧ encoded.cfg = encoded.cfg
    ∧ encoded.val 1 = (block [(0, 4611686018427387903), (1, 56), (2, 8)] 0).val 1
    ∧ elen ((block [(0, 4611686018427387903), (1, 56), (2, 8)] 0).val 0) ≤ encoded.val 2
    ∧ encoded.val 1 + encoded.val 2 ≤ encoded.cfg.wbufSize :=
  ⟨by decide, by decide, by decide, rfl, fun _ => rfl, rfl, by decide, by decide, by decide⟩

theorem witness_MfstCopiesStatus :
    (withReq 8 (withErr .bufferTooSmall State.reset)).status.legal
    ∧ (withReq 8 (withErr .bufferTooSmall State.reset)).status.fault = false := by decide

/-! ### Arithmetic -/

theorem witness_AddAddsOrRange :
    (block [(0, 4611686018427387903)] 0).val 0 + (block [(0, 4611686018427387903)] 0).val 1 ≤ 2 ^ 62 - 1
    ∧ 2 ^ 62 ≤ (block [(0, 4611686018427387903), (1, 1)] 0).val 0
        + (block [(0, 4611686018427387903), (1, 1)] 0).val 1 := by decide

theorem witness_SubSubtractsOrOverflow :
    ((block [(0, 4611686018427387903), (1, 4611686018427387903)] 0).val 1
        ≤ (block [(0, 4611686018427387903), (1, 4611686018427387903)] 0).val 0
      ∧ (block [(0, 4611686018427387903), (1, 4611686018427387903)] 0).val 0 ≤ 2 ^ 62 - 1)
    ∧ (block [(1, 1)] 0).val 0 < (block [(1, 1)] 0).val 1 := by decide

/-- AR15, AR16 and AR17, and the largest product below 2^64 of MAX. -/
theorem witness_MulMultipliesOrFaults :
    ((block [(0, 4611686018427387903), (1, 1)] 0).val 0 * (block [(0, 4611686018427387903), (1, 1)] 0).val 1
        ≤ 2 ^ 62 - 1)
    ∧ (2 ^ 62 ≤ (block [(0, 2147483648), (1, 2147483648)] 0).val 0
          * (block [(0, 2147483648), (1, 2147483648)] 0).val 1
        ∧ (block [(0, 2147483648), (1, 2147483648)] 0).val 0
            * (block [(0, 2147483648), (1, 2147483648)] 0).val 1 < 2 ^ 64)
    ∧ (block [(0, 4611686018427387903), (1, 4)] 0).val 0 * (block [(0, 4611686018427387903), (1, 4)] 0).val 1
        < 2 ^ 64
    ∧ 2 ^ 64 ≤ (block [(0, 4294967296), (1, 4294967296)] 0).val 0
        * (block [(0, 4294967296), (1, 4294967296)] 0).val 1 := by decide

theorem witness_DivRemDivideOrFault :
    (block [(0, 5)] 0).val 1 = 0
    ∧ ((block [(0, 4611686018427387903), (1, 1)] 0).val 1 ≠ 0
        ∧ (block [(0, 4611686018427387903), (1, 1)] 0).val 0 ≤ 2 ^ 62 - 1) := by decide

/-- 100 and 7: each of the five commands completes. -/
theorem witness_ArithmeticLaws :
    ValuesInRange (block [(0, 100), (1, 7)] 0) ∧ (block [(0, 100), (1, 7)] 0).status.fault = false
    ∧ (∀ i ∈ [Instr.add 2 0 1, .sub 2 0 1, .mul 2 0 1, .div 2 0 1, .rem 2 0 1],
        (ran i (block [(0, 100), (1, 7)] 0)).status.fault = false)
    ∧ exec (.add 2 0 1) (block [(0, 100), (1, 7)] 0) = .next (ran (.add 2 0 1) (block [(0, 100), (1, 7)] 0))
    ∧ exec (.sub 2 0 1) (block [(0, 100), (1, 7)] 0) = .next (ran (.sub 2 0 1) (block [(0, 100), (1, 7)] 0))
    ∧ exec (.mul 2 0 1) (block [(0, 100), (1, 7)] 0) = .next (ran (.mul 2 0 1) (block [(0, 100), (1, 7)] 0))
    ∧ exec (.div 2 0 1) (block [(0, 100), (1, 7)] 0) = .next (ran (.div 2 0 1) (block [(0, 100), (1, 7)] 0))
    ∧ exec (.rem 2 0 1) (block [(0, 100), (1, 7)] 0) = .next (ran (.rem 2 0 1) (block [(0, 100), (1, 7)] 0)) :=
  ⟨by unfold ValuesInRange; decide, by decide, by decide, rfl, rfl, rfl, rfl, rfl⟩

/-! ### Bitwise, shift and the rest -/

theorem witness_LogicActsBitByBit :
    (block [(0, 4611686018427387903), (1, 15)] 0).val 0 ≤ 2 ^ 62 - 1
    ∧ (block [(0, 4611686018427387903), (1, 15)] 0).val 1 ≤ 2 ^ 62 - 1 := by decide

theorem witness_NotComplementsAtItsWidth :
    ((block [(0, 4611686018427387903)] 0).val 0 ≤ 2 ^ 62 - 1
        ∧ (block [(0, 4611686018427387903)] 0).cfg.notWidth = .w64)
    ∧ ((with62 (block [] 0)).val 0 ≤ 2 ^ 62 - 1 ∧ (with62 (block [] 0)).cfg.notWidth = .w62) := by decide

/-- Amounts 64, 61, 62 and 63 of the value 1. -/
theorem witness_ShlShiftsOrRange :
    64 ≤ (block [(0, 1), (1, 64)] 0).val 1
    ∧ ((block [(0, 1), (1, 61)] 0).val 1 < 64
        ∧ (((block [(0, 1), (1, 61)] 0).reg 0) <<< (block [(0, 1), (1, 61)] 0).val 1).getLsbD 62 = false
        ∧ (((block [(0, 1), (1, 61)] 0).reg 0) <<< (block [(0, 1), (1, 61)] 0).val 1).getLsbD 63 = false)
    ∧ ((block [(0, 1), (1, 62)] 0).val 1 < 64
        ∧ (((block [(0, 1), (1, 62)] 0).reg 0) <<< (block [(0, 1), (1, 62)] 0).val 1).getLsbD 62 = true)
    ∧ ((block [(0, 1), (1, 63)] 0).val 1 < 64
        ∧ (((block [(0, 1), (1, 63)] 0).reg 0) <<< (block [(0, 1), (1, 63)] 0).val 1).getLsbD 63 = true) := by
  decide

theorem witness_ShrShiftsWithZeroFill :
    (block [(0, 4611686018427387903), (1, 62)] 0).val 0 ≤ 2 ^ 62 - 1
    ∧ 62 ≤ (block [(0, 4611686018427387903), (1, 62)] 0).val 1 := by decide

/-- 0 < 63 < MAX: both comparisons of the transitivity clause give 1. -/
theorem witness_ComparisonsAreATotalOrder :
    exec (.lt 3 0 1) (block [(1, 63), (2, 4611686018427387903)] 0)
        = .next (ran (.lt 3 0 1) (block [(1, 63), (2, 4611686018427387903)] 0))
    ∧ exec (.lt 3 1 2) (block [(1, 63), (2, 4611686018427387903)] 0)
        = .next (ran (.lt 3 1 2) (block [(1, 63), (2, 4611686018427387903)] 0))
    ∧ (ran (.lt 3 0 1) (block [(1, 63), (2, 4611686018427387903)] 0)).val 3 = 1
    ∧ (ran (.lt 3 1 2) (block [(1, 63), (2, 4611686018427387903)] 0)).val 3 = 1 :=
  ⟨rfl, rfl, by decide, by decide⟩

theorem witness_AssemblerRefusesWhatItMust :
    [AsmOperand.reg 0, .reg 0].length ≠ formArity (.r3 .add)
    ∧ (AsmOperand.reg 8 ∈ [AsmOperand.reg 8, .reg 0, .reg 0] ∧ 7 < 8)
    ∧ (AsmOperand.imm 65536 ∈ [AsmOperand.reg 0, .imm 65536] ∧ 65535 < 65536)
    ∧ (7 ≤ 7 ∧ 0 ≤ 7 ∧ 65535 ≤ 65535) := by decide

theorem witness_PseudoInstructionsDoAsNamed :
    (block [(0, 4611686018427387903), (7, 4611686018427387903)] 0).val 0 ≤ 2 ^ 62 - 1
    ∧ (block [(0, 4611686018427387903), (7, 4611686018427387903)] 0).val 7 = 2 ^ 62 - 1 := by decide

end Sys2Proof.Tests
end

section
/-! Every way a command can end, in one inversion lemma over all instructions (`exec_ending`), and what it
says of the registers and of STATUS. -/

namespace Sys2Proof.Machine

/-! ### Registers kept or committed -/

/-- Each register is as it was or holds a value of at most MAX: `Commit` is the only path that writes one
(10_state.md R24). -/
def RegsKeptOrInRange (s t : State) : Prop := ∀ r : Reg, t.reg r = s.reg r ∨ t.val r ≤ maxValue

theorem SameRegs.keptOrInRange {s t : State} (h : SameRegs s t) : RegsKeptOrInRange s t :=
  fun r => .inl (h r)

theorem SameRegsBut.keptOrInRange {rd : Reg} {s t : State} (h : SameRegsBut rd s t)
    (hrd : t.val rd ≤ maxValue) : RegsKeptOrInRange s t := fun r => by
  by_cases hr : r = rd
  · exact .inr (hr ▸ hrd)
  · exact .inl (h r hr)

theorem setReg_keptOrInRange (s : State) (rd : Reg) {v : Nat} (hv : v ≤ maxValue) :
    RegsKeptOrInRange s (s.setReg rd (BitVec.ofNat 64 v)) :=
  (setReg_sameRegsBut s rd _).keptOrInRange ((setReg_val_self hv).trans_le hv)

theorem ValuesInRange.of_keptOrInRange {s t : State} (hs : ValuesInRange s) (h : RegsKeptOrInRange s t) :
    ValuesInRange t := fun r => by
  rcases h r with hkept | hle
  · have hval : t.val r = s.val r := congrArg BitVec.toNat hkept
    exact hval ▸ hs r
  · exact hle

/-- A word of at most MAX has bits 63:62 at 0 (10_state.md R23). -/
theorem topBits_eq_zero {w : Word} (h : w.toNat ≤ maxValue) : w.extractLsb' 62 2 = 0#2 := by
  have hdiv : w.toNat / 2 ^ 62 = 0 := Nat.div_eq_of_lt (Nat.lt_of_le_of_lt h (by decide))
  apply BitVec.eq_of_toNat_eq
  rw [BitVec.extractLsb'_toNat, Nat.shiftRight_eq_div_pow, hdiv]
  rfl

/-! ### The codec -/

/-- The combinations of ERR, LEN and REQ that DEC and ENC write: a wire length with OK, EMPTY with neither, a needed
wire length with BUFFER_TOO_SMALL (10_state.md R30, R31). -/
def CodecResult (e : ErrCode) (l r : Nat) : Prop :=
  (e = .ok ∧ l ∈ [1, 2, 4, 8] ∧ r = 0) ∨ (e = .empty ∧ l = 0 ∧ r = 0)
  ∨ (e = .bufferTooSmall ∧ l = 0 ∧ r ∈ [1, 2, 4, 8])

theorem elen_mem (v : Nat) : elen v ∈ [1, 2, 4, 8] := by simpa using elen_cases v

theorem wireLen_mem (b : Byte) : wireLen b ∈ [1, 2, 4, 8] := by simpa using wireLen_cases b

/-- DEC or ENC ended without a fault: ERR, LEN and REQ hold one of their combinations, the rest of STATUS is kept. -/
structure CodecEnds (s t : State) : Prop where
  status : ∃ e l r, CodecResult e l r ∧ CodecStatus e l r s t
  regs : RegsKeptOrInRange s t

theorem ReportsCodec.codecEnds {e : ErrCode} {l r : Nat} {s t : State} (hc : CodecResult e l r)
    (h : ReportsCodec e l r s t) : CodecEnds s t :=
  ⟨⟨e, l, r, hc, h.status⟩, h.regs.keptOrInRange⟩

/-- Writing a combination of ERR, LEN and REQ last, after an update `u` that left STATUS alone. -/
theorem setCodec_codecEnds {e : ErrCode} {l r : Nat} {s u : State} (hc : CodecResult e l r)
    (hstatus : u.status = s.status) (hregs : RegsKeptOrInRange s u) : CodecEnds s (u.setCodec e l r) := by
  have hlt : l < 16 ∧ r < 16 := by
    simp only [CodecResult, List.mem_cons, List.not_mem_nil, or_false] at hc
    omega
  obtain ⟨herr, hlen, hreq, hfault, hcause⟩ := setCodec_codecStatus u e hlt.1 hlt.2
  rw [hstatus] at hfault hcause
  exact ⟨⟨e, l, r, hc, herr, hlen, hreq, hfault, hcause⟩, hregs⟩

/-- All that DEC can do, its reads of WBUF counted: beside its report or its commit it changes only the number of
bytes drawn (42_codec.md R142, 20_memory.md R57). -/
theorem execDec_next {rd ro ra : Reg} {s t : State} (h : execDec rd ro ra s = .next t) :
    Faults .region s t
    ∨ ReportsCodec .empty 0 0 s t
    ∨ (∃ n l, l ∈ [1, 2, 4, 8] ∧ t = { s with draws := n }.setCodec .bufferTooSmall 0 l)
    ∨ (∃ n l v, l ∈ [1, 2, 4, 8] ∧ v ≤ maxValue
        ∧ t = ({ s with draws := n }.setReg rd (BitVec.ofNat 64 v)).setCodec .ok l 0) := by
  rcases execDec_cases h with ⟨-, hf⟩ | ⟨-, -, hr⟩ | ⟨-, -, hd⟩
  · exact .inl hf
  · exact .inr (.inl hr)
  · obtain ⟨n, hn⟩ := readByte_state s (s.val ro)
    rw [hn] at hd
    rcases decFrom_cases hd with ⟨-, ht⟩ | ⟨-, ht⟩
    · exact .inr (.inr (.inl ⟨n, _, wireLen_mem _, ht⟩))
    · obtain ⟨k, hk⟩ := readBytes_state { s with draws := n } (s.val ro + 1)
        (wireLen (s.readByte (s.val ro)).1 - 1)
      rw [hk] at ht
      have hlen : wireLen (s.readByte (s.val ro)).1 ≤ 8 := by
        rcases wireLen_cases (s.readByte (s.val ro)).1 with e | e | e | e <;> omega
      exact .inr (.inr (.inr ⟨k, _, _, wireLen_mem _, wireValue_le _ hlen, ht⟩))

theorem execDec_codecEnds {rd ro ra : Reg} {s t : State} (h : execDec rd ro ra s = .next t) :
    Faults .region s t ∨ CodecEnds s t := by
  rcases execDec_next h with hf | hr | ⟨n, l, hl, rfl⟩ | ⟨n, l, v, hl, hv, rfl⟩
  · exact .inl hf
  · exact .inr (hr.codecEnds (.inr (.inl ⟨rfl, rfl, rfl⟩)))
  · have hregs : SameRegs s { s with draws := n } := fun _ => rfl
    exact .inr (setCodec_codecEnds (.inr (.inr ⟨rfl, rfl, hl⟩)) rfl hregs.keptOrInRange)
  · have hregs : RegsKeptOrInRange s ({ s with draws := n }.setReg rd (BitVec.ofNat 64 v)) :=
      setReg_keptOrInRange { s with draws := n } rd hv
    exact .inr (setCodec_codecEnds (.inl ⟨rfl, hl, rfl⟩) rfl hregs)

theorem execEnc_codecEnds {rv ro rc : Reg} {s t : State} (h : execEnc rv ro rc s = .next t) :
    Faults .region s t ∨ CodecEnds s t := by
  rcases execEnc_cases h with ⟨-, hf⟩ | ⟨-, -, hr⟩ | ⟨-, -, rfl⟩
  · exact .inl hf
  · exact .inr (hr.codecEnds (.inr (.inr ⟨rfl, rfl, elen_mem _⟩)))
  · obtain ⟨-, -, hstatus, -⟩ := writeBytes_frame s (s.val ro) (wireEncode (s.val rv))
    have hregs : SameRegs s (s.writeBytes (s.val ro) (wireEncode (s.val rv))) := writeBytes_reg s _ _
    exact .inr (setCodec_codecEnds (.inl ⟨rfl, elen_mem _, rfl⟩) hstatus hregs.keptOrInRange)

/-! ### All commands -/

/-- The endings of a command, by the group of 10_state.md R34 it stands in: any may fault, and without a fault each
group has its own. -/
inductive CommandEnding (i : Instr) (s t : State) : Prop
  | faults (c : Cause) (hc : c ≠ .none) (h : Faults c s t)
  | completes (hg : statusGroup i = .errOnly) (rd : Reg) (v : Nat) (hd : destination i = some rd)
      (hv : v ≤ maxValue) (h : Completes rd v s t)
  | reports (hg : statusGroup i = .errOnly) (h : Reports .notExact s t)
  | moves (hg : statusGroup i = .unchanged) (rd : Reg) (v : Nat) (hd : destination i = some rd)
      (hv : v ≤ maxValue) (h : Moves rd v s t)
  | codec (hg : statusGroup i = .codec) (h : CodecEnds s t)

theorem destination_of_errOnly {i : Instr} (h : statusGroup i = .errOnly) : ∃ rd, destination i = some rd := by
  cases i
  case enc => cases h
  all_goals exact ⟨_, rfl⟩

theorem exec_moves {i : Instr} {s t : State} (hg : statusGroup i = .unchanged) (h : exec i s = .next t) :
    ∃ rd v, destination i = some rd ∧ v ≤ maxValue ∧ Moves rd v s t := by
  cases i <;> simp only [statusGroup, reduceCtorEq] at hg
  case mflen rd =>
    obtain ⟨u, hu, hm⟩ := execMflen_moves rd s
    cases hu.symm.trans h
    exact ⟨rd, _, rfl, len_le s.status, hm⟩
  case mfst rd =>
    obtain ⟨u, hu, hm⟩ := execMfst_moves rd s
    cases hu.symm.trans h
    exact ⟨rd, _, rfl, word_le s.status, hm⟩

theorem exec_codecEnds {i : Instr} {s t : State} (hg : statusGroup i = .codec) (h : exec i s = .next t) :
    Faults .region s t ∨ CodecEnds s t := by
  cases i <;> simp only [statusGroup, reduceCtorEq] at hg
  case dec => exact execDec_codecEnds h
  case enc => exact execEnc_codecEnds h

/-- All that a command can do (60_exceptions.md R200). -/
theorem exec_ending {i : Instr} {s t : State} (h : exec i s = .next t) : CommandEnding i s t := by
  cases hg : statusGroup i with
  | errOnly =>
    obtain ⟨rd, hd⟩ := destination_of_errOnly hg
    rcases exec_alu_cases hg hd h with ⟨c, hc, hf⟩ | ⟨v, hv, hcomp⟩ | hr
    · exact .faults c hc hf
    · exact .completes hg rd v hd hv hcomp
    · exact .reports hg hr
  | unchanged =>
    obtain ⟨rd, v, hd, hv, hm⟩ := exec_moves hg h
    exact .moves hg rd v hd hv hm
  | codec =>
    rcases exec_codecEnds hg h with hf | hc
    · exact .faults .region (by decide) hf
    · exact .codec hg hc

/-- No ending but a fault sets FAULT. -/
theorem CommandEnding.faults_of_fault {i : Instr} {s t : State} (h : CommandEnding i s t)
    (hs : s.status.fault = false) (ht : t.status.fault = true) : ∃ c, c ≠ .none ∧ Faults c s t := by
  cases h with
  | faults c hc hf => exact ⟨c, hc, hf⟩
  | completes _ _ _ _ _ h => simp [h.status, hs] at ht
  | reports _ h => simp [h.status, hs] at ht
  | moves _ _ _ _ _ h => simp [h.status, hs] at ht
  | codec _ h =>
    obtain ⟨_, _, _, -, hstatus⟩ := h.status
    simp [hstatus.fault, hs] at ht

theorem CommandEnding.keptOrInRange {i : Instr} {s t : State} (h : CommandEnding i s t) :
    RegsKeptOrInRange s t := by
  cases h with
  | faults _ _ h => exact h.regs.keptOrInRange
  | completes _ _ _ _ hv h => exact h.regs.keptOrInRange (h.dest.trans_le hv)
  | reports _ h => exact h.regs.keptOrInRange
  | moves _ _ _ _ hv h => exact h.regs.keptOrInRange (h.dest.trans_le hv)
  | codec _ h => exact h.regs

end Sys2Proof.Machine
end

section
/-! The registers stay in [0, MAX] (10_state.md R23): every host operation keeps or commits each of them. -/

namespace Sys2Proof.Machine

theorem portWrBuf_sameRegs {a : Nat} {b : Byte} {s t : State} (h : portWrBuf a b s = .next t) :
    SameRegs s t := by
  unfold portWrBuf at h
  split_ifs at h
  cases h
  exact fun _ => rfl

theorem portRdBuf_sameRegs {a : Nat} {s t : State} (h : portRdBuf a s = .next t) : SameRegs s t := by
  unfold portRdBuf at h
  split_ifs at h
  obtain ⟨n, hn⟩ := readByte_state s a
  rw [hn] at h
  cases h
  exact fun _ => rfl

theorem issue_keptOrInRange {c : Command} {s t : State} (h : issue c s = .next t) : RegsKeptOrInRange s t := by
  rcases issue_cases h with ⟨-, rfl⟩ | ⟨-, -, hf⟩ | ⟨-, i, -, hi⟩
  · exact (SameRegs.refl _).keptOrInRange
  · exact hf.regs.keptOrInRange
  · exact (exec_ending hi).keptOrInRange

theorem reset_valuesInRange : ValuesInRange State.reset := by
  unfold ValuesInRange
  decide

theorem perform_keptOrInRange {op : HostOp} {s t : State} (h : perform op s = .next t) :
    RegsKeptOrInRange s t := by
  cases op with
  | reset => cases h; exact fun r => .inr (reset_valuesInRange r)
  | wrDin w => cases h; exact fun _ => .inl rfl
  | wrBuf a b => exact (portWrBuf_sameRegs h).keptOrInRange
  | rdBuf a => exact (portRdBuf_sameRegs h).keptOrInRange
  | rdV i => cases h; exact fun _ => .inl rfl
  | rdStatus => cases h; exact fun _ => .inl rfl
  | issue c => exact issue_keptOrInRange h

theorem step_valuesInRange {s t : State} (hs : ValuesInRange s) (h : step s = .next t) : ValuesInRange t := by
  rcases step_cases s with ⟨-, hidle⟩ | ⟨op, rest, -, hop⟩
  · cases hidle.symm.trans h
    exact hs
  · have haccept : ValuesInRange (s.accept rest) := hs
    exact haccept.of_keptOrInRange (perform_keptOrInRange (hop.symm.trans h))

/-- Settles O21: the range is kept by every step (`step_valuesInRange`), and a value in range has its top bits 0. -/
theorem registersStayInRange : Obligations.RegistersStayInRange := by
  refine ⟨fun s t hs h r => ?_, reset_valuesInRange⟩
  have ht : t.val r ≤ maxValue := step_valuesInRange hs h r
  exact ⟨ht, topBits_eq_zero ht⟩

end Sys2Proof.Machine
end

section
/-! Which fields of STATUS a command writes (10_state.md R34), read off its ending. -/

namespace Sys2Proof.Machine

theorem mem_of_toNat_mem_wireLengths (b : BitVec 4) (h : b.toNat ∈ [1, 2, 4, 8]) :
    b ∈ [1#4, 2#4, 4#4, 8#4] := by
  revert b
  decide

/-- The combinations of `CodecResult` as the fields of STATUS hold them. -/
theorem CodecStatus.fields {e : ErrCode} {l r : Nat} {s t : State} (hc : CodecResult e l r)
    (h : CodecStatus e l r s t) :
    (t.status.err = .ok ∧ t.status.len ∈ [1#4, 2#4, 4#4, 8#4] ∧ t.status.req = 0)
    ∨ (t.status.err = .empty ∧ t.status.len = 0 ∧ t.status.req = 0)
    ∨ (t.status.err = .bufferTooSmall ∧ t.status.len = 0 ∧ t.status.req ∈ [1#4, 2#4, 4#4, 8#4]) := by
  obtain ⟨herr, hlen, hreq, -, -⟩ := h
  rcases hc with ⟨rfl, hl, rfl⟩ | ⟨rfl, rfl, rfl⟩ | ⟨rfl, rfl, hr⟩
  · exact .inl ⟨herr, mem_of_toNat_mem_wireLengths _ (hlen ▸ hl), BitVec.eq_of_toNat_eq hreq⟩
  · exact .inr (.inl ⟨herr, BitVec.eq_of_toNat_eq hlen, BitVec.eq_of_toNat_eq hreq⟩)
  · exact .inr (.inr ⟨herr, BitVec.eq_of_toNat_eq hlen, mem_of_toNat_mem_wireLengths _ (hreq ▸ hr)⟩)

/-- Settles O25: each group's row is its endings' (`exec_ending`), a fault has only the ending that faults, and an
ISSUE on a faulted block is ignored. -/
theorem statusFieldsWrittenByGroup : Obligations.StatusFieldsWrittenByGroup := by
  refine ⟨fun i s t _ h ht => ?_, fun i s t hs h ht => ?_, fun c s t hs h => ?_⟩
  · cases exec_ending h with
    | faults c _ hf => simp [hf.status] at ht
    | completes hg _ _ _ _ hc => simp [hg, hc.status]
    | reports hg hr => simp [hg, hr.status]
    | moves hg _ _ _ _ hm => simp [hg, hm.status]
    | codec hg hc =>
      obtain ⟨e, l, r, hres, hstatus⟩ := hc.status
      rw [hg]
      exact ⟨hstatus.fcause, hstatus.fields hres⟩
  · obtain ⟨c, -, hf⟩ := (exec_ending h).faults_of_fault hs ht
    rw [hf.status]
  · cases (issue_faulted hs).symm.trans h
    rfl

end Sys2Proof.Machine
end

section
/-! The opcode table, row by row (30_encoding.md R75), and what it says of `legal`: a row is found by its opcode, and
every mask covers the opcode, so the row that matches a word is the row of that word's opcode. -/

namespace Sys2Proof

/-! ### The rows -/

/-- Every mask covers the opcode bits. -/
theorem opField_mask : ∀ r ∈ opcodeTable, opField r.mask = 0xFF#8 := by decide

/-- The `match` word of a row carries the row's opcode. -/
theorem opField_matchWord : ∀ r ∈ opcodeTable, opField r.matchWord = r.op := by decide

theorem opcodes_nodup : (opcodeTable.map OpcodeRow.op).Nodup := by decide

/-- No two rows share an opcode. -/
theorem row_eq_of_op_eq {r q : OpcodeRow} (hr : r ∈ opcodeTable) (hq : q ∈ opcodeTable) (h : r.op = q.op) :
    r = q :=
  List.inj_on_of_nodup_map opcodes_nodup hr hq h

/-! ### Matching a word -/

theorem opField_and (c m : Command) : opField (c &&& m) = opField c &&& opField m :=
  BitVec.extractLsb'_and

/-- A row that matches a word has its opcode. -/
theorem op_eq_of_matches {r : OpcodeRow} {c : Command} (hr : r ∈ opcodeTable) (h : r.matches c) :
    r.op = opField c := by
  have hop : opField c &&& 0xFF#8 = r.op := by
    rw [← opField_mask r hr, ← opField_and, h, opField_matchWord r hr]
  exact hop.symm.trans BitVec.and_allOnes

/-- Looking up a word's opcode finds a row of the table exactly when the row has that opcode. -/
theorem findRow_eq_some_iff {c : Command} {r : OpcodeRow} :
    opcodeTable.find? (fun q => q.op == opField c) = some r ↔ r ∈ opcodeTable ∧ r.op = opField c := by
  constructor
  · intro h
    exact ⟨List.mem_of_find?_eq_some h, by simpa using List.find?_some h⟩
  · rintro ⟨hr, hop⟩
    cases hfind : opcodeTable.find? (fun q => q.op == opField c) with
    | none => exact absurd hop (by simpa using List.find?_eq_none.mp hfind r hr)
    | some q =>
      have hq : q.op = opField c := by simpa using List.find?_some hfind
      rw [row_eq_of_op_eq (List.mem_of_find?_eq_some hfind) hr (hq.trans hop.symm)]

/-! ### Legal words (R78) -/

/-- A word decodes to a command exactly when some row matches it, and the command is the one that row builds. -/
theorem decode_eq_ok_iff {c : Command} {i : Instr} :
    decode c = .ok i ↔ ∃ r ∈ opcodeTable, r.matches c ∧ buildForm r.form c = i := by
  constructor
  · intro h
    unfold decode at h
    split at h
    · cases h
    next r hfind =>
      split_ifs at h with hmatch
      cases h
      exact ⟨r, (findRow_eq_some_iff.mp hfind).1, hmatch, rfl⟩
  · rintro ⟨r, hr, hmatch, rfl⟩
    have hfind := findRow_eq_some_iff.mpr ⟨hr, op_eq_of_matches hr hmatch⟩
    simp only [decode, hfind, if_pos hmatch]

theorem legal_iff_decode_ok (c : Command) : legal c = true ↔ ∃ i, decode c = .ok i := by
  unfold legal
  cases decode c <;> simp

theorem legal_iff_exists_matches (c : Command) : legal c = true ↔ ∃ r ∈ opcodeTable, r.matches c := by
  rw [legal_iff_decode_ok]
  constructor
  · rintro ⟨i, hdecode⟩
    obtain ⟨r, hr, hmatch, -⟩ := decode_eq_ok_iff.mp hdecode
    exact ⟨r, hr, hmatch⟩
  · rintro ⟨r, hr, hmatch⟩
    exact ⟨_, decode_eq_ok_iff.mpr ⟨r, hr, hmatch, rfl⟩⟩

/-- A word whose opcode no row has is illegal (R79). -/
theorem legal_eq_false_of_no_row {c : Command} (h : ∀ r ∈ opcodeTable, r.op ≠ opField c) :
    legal c = false := by
  rw [Bool.eq_false_iff, ne_eq, legal_iff_exists_matches]
  rintro ⟨r, hr, hmatch⟩
  exact h r hr (op_eq_of_matches hr hmatch)

/-- Settles O3: `legal_iff_exists_matches`, and two rows that match one word have its opcode, which names one row. -/
theorem legalWordMatchesExactlyOneRow : Obligations.LegalWordMatchesExactlyOneRow := by
  refine fun c => ⟨legal_iff_exists_matches c, fun r hr q hq => ⟨fun hrc hqc => ?_, opField_mask r hr, ?_⟩⟩
  · exact row_eq_of_op_eq hr hq ((op_eq_of_matches hr hrc).trans (op_eq_of_matches hq hqc).symm)
  · exact row_eq_of_op_eq hr hq

end Sys2Proof
end

section
/-! The opcodes without a command (30_encoding.md R79) and the grid of the construction opcodes (R76). -/

namespace Sys2Proof

open Sys2Proof.Machine

/-! ### Unassigned opcodes -/

theorem isUnassigned_iff_no_row (op : BitVec 8) :
    isUnassigned op = true ↔ ∀ r ∈ opcodeTable, r.op ≠ op := by
  revert op
  decide

theorem legal_eq_false_of_isUnassigned {c : Command} (h : isUnassigned (opField c) = true) :
    legal c = false :=
  legal_eq_false_of_no_row ((isUnassigned_iff_no_row _).mp h)

/-- Settles O4: the list is that of the opcodes of no row, and a word with such an opcode matches no row. -/
theorem unassignedOpcodesAreIllegal : Obligations.UnassignedOpcodesAreIllegal :=
  ⟨isUnassigned_iff_no_row, fun _ => legal_eq_false_of_isUnassigned,
    legal_eq_false_of_isUnassigned (by decide), legal_eq_false_of_isUnassigned (by decide)⟩

/-! ### The construction grid -/

theorem encodeR1_opcode (op : BitVec 8) (rd : Reg) : (encodeR1 op rd).toNat / 2 ^ 24 = op.toNat := by
  rw [← opField_toNat, (encodeR1_fields op rd).1]

/-- The cells of the grid without a command: type 3 under every policy, type 2 under Clamping and Truncating. -/
theorem isUnassigned_of_emptyCell {op : BitVec 8} {policy : Nat} (hp : policy < 4)
    (h : op.toNat = 0x04 + 4 * policy + 3
      ∨ ((policy = 1 ∨ policy = 2) ∧ op.toNat = 0x04 + 4 * policy + 2)) :
    isUnassigned op = true := by
  have hop : op.toNat ∈ [0x07, 0x0A, 0x0B, 0x0E, 0x0F, 0x13] := by
    simp only [List.mem_cons, List.not_mem_nil, or_false]
    omega
  clear h
  revert op
  decide

/-- Settles O5: the ten opcodes are the top bytes of their layout (`encodeR1_opcode`), and the empty cells are
unassigned. -/
theorem constructionOpcodesFormAGrid : Obligations.ConstructionOpcodesFormAGrid := by
  refine ⟨fun rd => ?_, fun c ⟨policy, hp, hcell⟩ => ?_⟩
  · exact ⟨encodeR1_opcode 0x04 rd, encodeR1_opcode 0x05 rd, encodeR1_opcode 0x06 rd,
      encodeR1_opcode 0x08 rd, encodeR1_opcode 0x09 rd,
      encodeR1_opcode 0x0C rd, encodeR1_opcode 0x0D rd,
      encodeR1_opcode 0x10 rd, encodeR1_opcode 0x11 rd, encodeR1_opcode 0x12 rd⟩
  · rw [← opField_toNat] at hcell
    exact legal_eq_false_of_isUnassigned (isUnassigned_of_emptyCell hp hcell)

end Sys2Proof
end

section
/-! The fault of an illegal word (30_encoding.md R80). -/

namespace Sys2Proof.Machine

/-- A step that takes an ISSUE performs it in the state from which the operation has been taken. -/
theorem step_issue {s : State} {c : Command} {rest : List HostOp} (h : s.pending = .issue c :: rest) :
    step s = issue c (s.accept rest) :=
  step_cons h

/-- Settles O8: the step is the ISSUE (`step_issue`), which raises ILLEGAL (`issue_illegal`) and nothing else. -/
theorem illegalWordRaisesIllegal : Obligations.IllegalWordRaisesIllegal := by
  intro s c rest hpending hfault hillegal
  rw [step_issue hpending, issue_illegal (s := s.accept rest) hfault hillegal]
  exact raiseFault_next .illegal (s.accept rest)

end Sys2Proof.Machine
end

section
/-! Operand entry from an integer source (40_construct.md R102 to R105, R107 to R112): each command ends in `Commit` of
a value of DIN, or is stopped by the sign of the source. -/

namespace Sys2Proof.Machine

/-! ### The views of DIN as the statements write them -/

theorem s64_eq_toInt (w : Word) : s64 w = w.toInt := by
  rw [BitVec.toInt_eq_toNat_cond, s64]
  split_ifs <;> omega

/-- DIN[61:0] is the remainder modulo 2^62 of the unsigned source. -/
theorem low62_toNat (w : Word) : (w.extractLsb' 0 62).toNat = w.toNat % 2 ^ 62 := by
  simp [BitVec.extractLsb'_toNat]

theorem low62_le (w : Word) : (w.extractLsb' 0 62).toNat ≤ maxValue :=
  Nat.le_pred_of_lt (w.extractLsb' 0 62).isLt

/-! ### The signed commands by the sign of the source -/

theorem execCvtdS_of_neg {rd : Reg} {s : State} (h : s.din.toInt < 0) :
    execCvtdS rd s = raiseFault .range s := by
  rw [execCvtdS, s64_eq_toInt, if_pos h]

theorem execCvtdS_of_nonneg {rd : Reg} {s : State} (h : 0 ≤ s.din.toInt) :
    execCvtdS rd s = commitOk rd s.din.toInt.toNat s := by
  rw [execCvtdS, s64_eq_toInt, if_neg h.not_gt]

theorem execCvtxS_of_neg {rd : Reg} {s : State} (h : s.din.toInt < 0) :
    execCvtxS rd s = report .notExact s := by
  rw [execCvtxS, s64_eq_toInt, if_pos h]

/-- On a source that is not negative the exact policy does as the direct one. -/
theorem execCvtxS_of_nonneg {rd : Reg} {s : State} (h : 0 ≤ s.din.toInt) :
    execCvtxS rd s = commitOk rd s.din.toInt.toNat s := by
  rw [execCvtxS, s64_eq_toInt, if_neg h.not_gt]

/-! ### The values committed -/

theorem toNat_le_maxValue {z : Int} (h : z ≤ 2 ^ 62 - 1) : z.toNat ≤ maxValue := by
  unfold maxValue
  omega

theorem maxValue_lt_toNat {z : Int} (h : 2 ^ 62 ≤ z) : maxValue < z.toNat := by
  unfold maxValue
  omega

/-- Clamping an unsigned source is the minimum with MAX (R107). -/
theorem execCvtcU_eq (rd : Reg) (s : State) :
    execCvtcU rd s = commitOk rd (min s.din.toNat (2 ^ 62 - 1)) s := by
  have hv : (if maxValue < u64 s.din then maxValue else u64 s.din) = min s.din.toNat (2 ^ 62 - 1) := by
    unfold maxValue u64
    split_ifs <;> omega
  rw [execCvtcU, hv]

/-- Clamping a signed source is the minimum with MAX, then the maximum with 0 (R108). -/
theorem execCvtcS_eq (rd : Reg) (s : State) :
    execCvtcS rd s = commitOk rd (max 0 (min s.din.toInt (2 ^ 62 - 1))).toNat s := by
  have hv : (if s64 s.din < 0 then minValue
      else if (maxValue : Int) < s64 s.din then maxValue else (s64 s.din).toNat)
        = (max 0 (min s.din.toInt (2 ^ 62 - 1))).toNat := by
    rw [s64_eq_toInt]
    unfold maxValue minValue
    split_ifs <;> omega
  rw [execCvtcS, hv]

/-- Truncating an unsigned source keeps its low 62 bits (R109). -/
theorem execCvttU_eq (rd : Reg) (s : State) :
    execCvttU rd s = commitOk rd (s.din.extractLsb' 0 62).toNat s := by
  have hv : (if maxValue < u64 s.din then u64 s.din % 2 ^ 62 else u64 s.din)
      = (s.din.extractLsb' 0 62).toNat := by
    rw [low62_toNat]
    unfold maxValue u64
    split_ifs <;> omega
  rw [execCvttU, hv]

/-- Truncating a signed source keeps its low 62 bits too: the sign counts -2^64, a multiple of 2^62 (R110). -/
theorem execCvttS_eq (rd : Reg) (s : State) :
    execCvttS rd s = commitOk rd (s.din.extractLsb' 0 62).toNat s := by
  have hv : (s64 s.din % 2 ^ 62).toNat = (s.din.extractLsb' 0 62).toNat := by
    rw [low62_toNat, s64]
    split_ifs <;> omega
  rw [execCvttS, hv]

/-! ### The statements -/

/-- Settles O29: a 16-bit immediate is at most MAX, so its `Commit` completes. -/
theorem ldiLoadsItsImmediate : Obligations.LdiLoadsItsImmediate := fun _ imm _ =>
  ⟨rfl, commitOk_completes ((Nat.le_of_lt imm.isLt).trans (by decide))⟩

/-- Settles O30: MAX itself passes the check of `Commit`. -/
theorem ldmaxLoadsMax : Obligations.LdmaxLoadsMax := fun _ _ =>
  ⟨rfl, commitOk_completes (Nat.le_refl maxValue)⟩

/-- Settles O31: both commands are the `Commit` of DIN, whose check is the whole case distinction. -/
theorem unsignedSourceStoredOrRange : Obligations.UnsignedSourceStoredOrRange := by
  refine fun rd s => ⟨rfl, rfl, fun i hi => ?_⟩
  have hexec : exec i s = commitOk rd s.din.toNat s := by
    rcases hi with rfl | rfl <;> rfl
  rw [hexec]
  exact ⟨fun hle => commitOk_completes hle, fun hlt => commitOk_faults hlt⟩

/-- Settles O32: the sign decides between RANGE and `Commit`, which raises RANGE above MAX. -/
theorem signedDirectStoredOrRange : Obligations.SignedDirectStoredOrRange := by
  refine fun rd s => ⟨rfl, fun h0 hle => ?_, fun hneg => ?_, fun hlt => ?_⟩ <;> rw [exec]
  · rw [execCvtdS_of_nonneg h0]
    exact commitOk_completes (toNat_le_maxValue hle)
  · rw [execCvtdS_of_neg hneg]
    exact raiseFault_next .range s
  · rw [execCvtdS_of_nonneg (by omega)]
    exact commitOk_faults (maxValue_lt_toNat hlt)

/-- Settles O33: as O32, with NOT_EXACT reported of a negative source. -/
theorem signedExactStoredOrReported : Obligations.SignedExactStoredOrReported := by
  refine fun rd s => ⟨rfl, fun h0 hle => ?_, fun hneg => ?_, fun hlt => ?_⟩ <;> rw [exec]
  · rw [execCvtxS_of_nonneg h0]
    exact commitOk_completes (toNat_le_maxValue hle)
  · rw [execCvtxS_of_neg hneg]
    exact report_next .notExact s
  · rw [execCvtxS_of_nonneg (by omega)]
    exact commitOk_faults (maxValue_lt_toNat hlt)

/-- Settles O36: the clamped values (`execCvtcU_eq`, `execCvtcS_eq`) are at most MAX. -/
theorem clampingSaturates : Obligations.ClampingSaturates := by
  refine fun rd s => ⟨rfl, rfl, ?_, ?_⟩ <;> rw [exec]
  · rw [execCvtcU_eq]
    exact commitOk_completes (Nat.min_le_right _ _)
  · rw [execCvtcS_eq]
    exact commitOk_completes (toNat_le_maxValue (by omega))

/-- Settles O37: both commands commit the low 62 bits (`execCvttU_eq`, `execCvttS_eq`), which are at most MAX. -/
theorem truncatingKeepsTheLow62Bits : Obligations.TruncatingKeepsTheLow62Bits := by
  refine fun rd s => ⟨rfl, rfl, ?_, ?_⟩ <;> rw [exec]
  · rw [execCvttU_eq]
    exact commitOk_completes (low62_le s.din)
  · rw [execCvttS_eq]
    exact commitOk_completes (low62_le s.din)

end Sys2Proof.Machine
end

section
/-! The binary64 views of DIN as exact rationals (40_construct.md R101), and with them CVTD.F (R106) and CVTX.F (R113):
the machine computes on sign, magnitude and exponent, the statements on the rational value. -/

namespace Sys2Proof.Machine

/-! ### Magnitude and value of the machine's class -/

/-- `|x|` for the finite class with significand `m` and exponent `e`. -/
def magnitude (m : Nat) (e : Int) : ℚ := m * (2 : ℚ) ^ e

/-- The value of a finite class: the magnitude with its sign. -/
def signedMagnitude (neg : Bool) (m : Nat) (e : Int) : ℚ :=
  if neg then -magnitude m e else magnitude m e

theorem signedMagnitude_eq (neg : Bool) (m : Nat) (e : Int) :
    signedMagnitude neg m e = (if neg then -1 else 1) * m * (2 : ℚ) ^ e := by
  unfold signedMagnitude magnitude
  split_ifs <;> ring

/-- The exact value of a class, none for a NaN or an infinity. -/
def F64.value : F64 → Option ℚ
  | .nan => none
  | .inf _ => none
  | .finite neg m e => some (signedMagnitude neg m e)

/-- The machine's class of a word has the value that R101 gives the word. -/
theorem binary64Value_eq_value (w : Word) : binary64Value w = (f64class w).value := by
  have hsign : w.getLsbD 63 = signBit w := by
    rw [← BitVec.msb_eq_getLsbD_last w, BitVec.msb_eq_decide, signBit]
  have hexp : w.toNat / 2 ^ 52 % 2 ^ 11 = expField w := by
    simp [expField, BitVec.extractLsb'_toNat, Nat.shiftRight_eq_div_pow]
  have hfrac : w.toNat % 2 ^ 52 = fracField w := by
    simp [fracField, BitVec.extractLsb'_toNat]
  unfold binary64Value f64class
  simp only [hsign, hexp, hfrac]
  by_cases hspecial : expField w = 0x7FF
  · rw [if_pos hspecial, if_pos hspecial]
    split_ifs <;> rfl
  by_cases hsubnormal : expField w = 0
  · rw [if_neg hspecial, if_neg hspecial, if_pos hsubnormal, if_pos hsubnormal, F64.value, signedMagnitude_eq]
  · rw [if_neg hspecial, if_neg hspecial, if_neg hsubnormal, if_neg hsubnormal, F64.value, signedMagnitude_eq]
    push_cast
    rfl

/-- A word without a value is of a class that is not finite. -/
theorem nan_or_inf_of_value_none {c : F64} (h : c.value = none) : c = .nan ∨ ∃ neg, c = .inf neg := by
  cases c with
  | nan => exact .inl rfl
  | inf neg => exact .inr ⟨neg, rfl⟩
  | finite neg m e => cases h

/-- A class with a value is finite and has the value of its sign, significand and exponent. -/
theorem finite_of_value_some {c : F64} {x : ℚ} (h : c.value = some x) :
    ∃ neg m e, c = .finite neg m e ∧ x = signedMagnitude neg m e := by
  cases c with
  | nan => cases h
  | inf neg => cases h
  | finite neg m e => exact ⟨neg, m, e, rfl, (Option.some.inj h).symm⟩

/-! ### The magnitude -/

theorem magnitude_nonneg (m : Nat) (e : Int) : 0 ≤ magnitude m e := by
  unfold magnitude
  positivity

theorem magnitude_of_nonneg {m : Nat} {e : Int} (h : 0 ≤ e) :
    magnitude m e = ((m * 2 ^ e.toNat : Nat) : ℚ) := by
  obtain ⟨k, rfl⟩ := Int.eq_ofNat_of_zero_le h
  simp [magnitude]

theorem magnitude_of_neg {m : Nat} {e : Int} (h : e < 0) :
    magnitude m e = (m : ℚ) / ((2 ^ (-e).toNat : Nat) : ℚ) := by
  obtain ⟨k, hk⟩ := Int.eq_ofNat_of_zero_le (show 0 ≤ -e by omega)
  obtain rfl : e = -(k : Int) := by omega
  simp [magnitude, div_eq_mul_inv]

/-- The machine's truncated magnitude is the floor of the magnitude. -/
theorem truncMag_eq_floor (m : Nat) (e : Int) : truncMag m e = ⌊magnitude m e⌋₊ := by
  unfold truncMag
  split_ifs with h
  · rw [magnitude_of_nonneg h, Nat.floor_natCast]
  · rw [magnitude_of_neg (by omega), Nat.floor_div_eq_div]

/-- The machine's test for an integral value: the magnitude is a natural number, its own floor. -/
theorem isIntegral_iff (m : Nat) (e : Int) :
    isIntegral m e = true ↔ magnitude m e = (truncMag m e : ℚ) := by
  unfold isIntegral truncMag
  split_ifs with h
  · simp [magnitude_of_nonneg h]
  · have hpos : ((2 ^ (-e).toNat : Nat) : ℚ) ≠ 0 := by positivity
    rw [magnitude_of_neg (by omega), beq_iff_eq, ← Nat.dvd_iff_mod_eq_zero, div_eq_iff hpos, ← Nat.cast_mul,
      Nat.cast_inj]
    exact ⟨fun hd => (Nat.div_mul_cancel hd).symm, fun heq => Dvd.intro_left _ heq.symm⟩

/-! ### The guards of the two commands, as statements about the value -/

/-- `trunc(x) < 0`, as the machine tests it, is `x ≤ -1`. -/
theorem negative_truncMag_iff (neg : Bool) (m : Nat) (e : Int) :
    (neg = true ∧ 0 < truncMag m e) ↔ signedMagnitude neg m e ≤ -1 := by
  have h0 := magnitude_nonneg m e
  rw [truncMag_eq_floor, Nat.floor_pos]
  cases neg with
  | false => exact iff_of_false (fun h => Bool.noConfusion h.1) (not_le.mpr (by linarith : -1 < magnitude m e))
  | true => simp [signedMagnitude]

theorem abs_signedMagnitude (neg : Bool) (m : Nat) (e : Int) :
    |signedMagnitude neg m e| = magnitude m e := by
  have h0 := magnitude_nonneg m e
  cases neg <;> simp [signedMagnitude, h0]

/-- The machine's test for a negative value, sign set and magnitude not 0, leaves -0.0 out. -/
theorem signedMagnitude_neg_iff (neg : Bool) (m : Nat) (e : Int) :
    signedMagnitude neg m e < 0 ↔ neg = true ∧ 0 < m := by
  have h0 := magnitude_nonneg m e
  have hpow : (0 : ℚ) < 2 ^ e := by positivity
  have hpos : 0 < magnitude m e ↔ 0 < m := by simp [magnitude, hpow]
  cases neg <;> simp [signedMagnitude, h0, hpos]

/-- A finite value passes the checks of CVTX.F exactly when it is a natural number below 2^64. -/
theorem passes_exact_checks_iff (neg : Bool) (m : Nat) (e : Int) :
    ¬ (isIntegral m e = false ∨ (neg = true ∧ 0 < m) ∨ 2 ^ 64 ≤ truncMag m e)
      ↔ ∃ n : Nat, n < 2 ^ 64 ∧ signedMagnitude neg m e = n := by
  rw [← signedMagnitude_neg_iff neg m e, not_or, not_or, Bool.not_eq_false, isIntegral_iff, not_lt, not_le]
  constructor
  · rintro ⟨hint, hnonneg, hlt⟩
    refine ⟨truncMag m e, hlt, ?_⟩
    rw [← hint, ← abs_signedMagnitude neg, abs_of_nonneg hnonneg]
  · rintro ⟨n, hlt, hx⟩
    have hmag : magnitude m e = n := by rw [← abs_signedMagnitude neg, hx, Nat.abs_cast]
    have htrunc : truncMag m e = n := by rw [truncMag_eq_floor, hmag, Nat.floor_natCast]
    rw [htrunc, hx]
    exact ⟨hmag, n.cast_nonneg, hlt⟩

/-- A finite value fails the checks of CVTD.F exactly when it is at most -1 or at least 2^64. -/
theorem fails_direct_checks_iff (neg : Bool) (m : Nat) (e : Int) :
    ((neg = true ∧ 0 < truncMag m e) ∨ 2 ^ 64 ≤ truncMag m e)
      ↔ signedMagnitude neg m e ≤ -1 ∨ 2 ^ 64 ≤ signedMagnitude neg m e := by
  have hlarge : 2 ^ 64 ≤ truncMag m e ↔ 2 ^ 64 ≤ |signedMagnitude neg m e| := by
    rw [truncMag_eq_floor, abs_signedMagnitude, Nat.le_floor_iff (magnitude_nonneg m e)]
    norm_num
  rw [negative_truncMag_iff, hlarge, le_abs]
  constructor
  · rintro (h | h | h)
    · exact .inl h
    · exact .inr h
    · exact .inl (by linarith)
  · exact Or.imp_right .inl

/-! ### What each command does to a word with a value, and to one without -/

/-- CVTD.F on a finite value: FP_INVALID outside (-1, 2^64), else the truncated magnitude is committed (R106). -/
theorem execCvtdF_of_value {rd : Reg} {s : State} {x : ℚ} (h : binary64Value s.din = some x) :
    execCvtdF rd s
      = if x ≤ -1 ∨ 2 ^ 64 ≤ x then raiseFault .fpInvalid s else commitOk rd ⌊|x|⌋₊ s := by
  rw [binary64Value_eq_value] at h
  obtain ⟨neg, m, e, hclass, rfl⟩ := finite_of_value_some h
  simp only [execCvtdF, hclass, fails_direct_checks_iff, abs_signedMagnitude, ← truncMag_eq_floor]

theorem execCvtdF_of_value_between {rd : Reg} {s : State} {x : ℚ} (h : binary64Value s.din = some x)
    (hlow : -1 < x) (hhigh : x < 2 ^ 64) : execCvtdF rd s = commitOk rd ⌊|x|⌋₊ s := by
  rw [execCvtdF_of_value h, if_neg (not_or.mpr ⟨not_le.mpr hlow, not_le.mpr hhigh⟩)]

theorem execCvtdF_of_value_none {rd : Reg} {s : State} (h : binary64Value s.din = none) :
    execCvtdF rd s = raiseFault .fpInvalid s := by
  rw [binary64Value_eq_value] at h
  rcases nan_or_inf_of_value_none h with hclass | ⟨neg, hclass⟩ <;> simp only [execCvtdF, hclass]

/-- CVTX.F commits a value that is a natural number below 2^64 (R113). -/
theorem execCvtxF_of_natCast {rd : Reg} {s : State} {n : Nat} (h : binary64Value s.din = some (n : ℚ))
    (hn : n < 2 ^ 64) : execCvtxF rd s = commitOk rd n s := by
  rw [binary64Value_eq_value] at h
  obtain ⟨neg, m, e, hclass, hx⟩ := finite_of_value_some h
  have htrunc : truncMag m e = n := by
    rw [truncMag_eq_floor, ← abs_signedMagnitude neg, ← hx, Nat.abs_cast, Nat.floor_natCast]
  simp only [execCvtxF, hclass]
  rw [if_neg ((passes_exact_checks_iff neg m e).mpr ⟨n, hn, hx.symm⟩), htrunc]

/-- CVTX.F reports NOT_EXACT of everything else (R113). -/
theorem execCvtxF_of_not_natCast {rd : Reg} {s : State}
    (h : ∀ n : Nat, n < 2 ^ 64 → binary64Value s.din ≠ some (n : ℚ)) :
    execCvtxF rd s = report .notExact s := by
  rw [binary64Value_eq_value] at h
  unfold execCvtxF
  cases hclass : f64class s.din with
  | nan => rfl
  | inf neg => rfl
  | finite neg m e =>
    refine if_pos (by_contra fun hpass => ?_)
    obtain ⟨n, hn, hx⟩ := (passes_exact_checks_iff neg m e).mp hpass
    exact h n hn (by rw [hclass, F64.value, hx])

/-! ### The statements -/

/-- Settles O34: inside (-1, 2^64) the floor of `|x|` is committed (`execCvtdF_of_value_between`); it is 0 on (-1, 0)
and the truncated value from 0 on. -/
theorem floatDirectTruncates : Obligations.FloatDirectTruncates := by
  refine fun rd s => ⟨rfl, fun hnone => ?_, fun x hx => ⟨fun hout => ?_, fun hlow hhigh => ?_,
    fun hlow hneg => ?_, fun h0 hhigh => ?_⟩⟩ <;> rw [exec]
  · rw [execCvtdF_of_value_none hnone]
    exact raiseFault_next .fpInvalid s
  · rw [execCvtdF_of_value hx, if_pos hout]
    exact raiseFault_next .fpInvalid s
  · have hfloor : 2 ^ 62 ≤ ⌊|x|⌋₊ := Nat.le_floor (by push_cast; exact hlow.trans (le_abs_self x))
    rw [execCvtdF_of_value_between hx (by linarith) hhigh]
    exact commitOk_faults hfloor
  · have hfloor : ⌊|x|⌋₊ = 0 := Nat.floor_eq_zero.mpr (abs_lt.mpr ⟨hlow, by linarith⟩)
    rw [execCvtdF_of_value_between hx hlow (by linarith), hfloor]
    exact commitOk_completes (Nat.zero_le _)
  · have hfloor : ⌊x⌋₊ < 2 ^ 62 := (Nat.floor_lt h0).mpr (by exact_mod_cast hhigh)
    rw [execCvtdF_of_value_between hx (by linarith) (by linarith), abs_of_nonneg h0]
    obtain ⟨t, ht, hc⟩ := commitOk_completes (rd := rd) (s := s) (Nat.le_pred_of_lt hfloor)
    exact ⟨⌊x⌋₊, t, Nat.floor_le h0, Nat.lt_floor_add_one x, ht, hc⟩

/-- Settles O35: a natural number below 2^64 is committed (`execCvtxF_of_natCast`), which raises RANGE from 2^62 on;
everything else is reported (`execCvtxF_of_not_natCast`). -/
theorem floatExactStoredOrReported : Obligations.FloatExactStoredOrReported := by
  refine fun rd s => ⟨rfl, fun n hn => ⟨fun hlt => ?_, fun hlow hhigh => ?_⟩, fun hnot => ?_⟩ <;> rw [exec]
  · rw [execCvtxF_of_natCast hn (by omega)]
    exact commitOk_completes (Nat.le_pred_of_lt hlt)
  · rw [execCvtxF_of_natCast hn hhigh]
    exact commitOk_faults hlow
  · rw [execCvtxF_of_not_natCast hnot]
    exact report_next .notExact s

end Sys2Proof.Machine
end

section
/-! The classifier commands (41_classify.md): `bw` is the minimum class of a value, and the trailing zero count is
the largest exponent of a power of two that divides its operand. -/

namespace Sys2Proof.Machine

/-! ### The minimum class (R130) -/

theorem bw_mem (v : Nat) : bw v ∈ [6, 14, 30, 62] := by
  unfold bw
  split_ifs <;> simp

/-- A value in range is of its class. -/
theorem lt_two_pow_bw {v : Nat} (h : v ≤ maxValue) : v < 2 ^ bw v := by
  unfold maxValue at h
  unfold bw
  split_ifs <;> omega

/-- No smaller class holds the value. -/
theorem bw_le_of_lt_two_pow {v c : Nat} (hc : c ∈ [6, 14, 30, 62]) (h : v < 2 ^ c) : bw v ≤ c := by
  simp only [List.mem_cons, List.not_mem_nil, or_false] at hc
  unfold bw
  rcases hc with rfl | rfl | rfl | rfl <;> split_ifs <;> omega

/-! ### The trailing zero count (R134) -/

/-- With fuel for every bit of a nonzero value, the powers of two that divide it are those up to the count. -/
theorem two_pow_dvd_iff_le_trailingZeros {fuel a : Nat} (h0 : a ≠ 0) (hlt : a < 2 ^ fuel) (j : Nat) :
    2 ^ j ∣ a ↔ j ≤ trailingZeros fuel a := by
  induction fuel generalizing a j with
  | zero => omega
  | succ fuel ih =>
    cases j with
    | zero => simp
    | succ j =>
      rw [trailingZeros]
      split_ifs with hodd
      · have hnot : ¬ 2 ∣ a := by omega
        exact iff_of_false (fun h => hnot (dvd_of_mul_left_dvd (pow_succ 2 j ▸ h))) (by omega)
      · obtain ⟨b, rfl⟩ : 2 ∣ a := by omega
        rw [pow_succ', Nat.mul_dvd_mul_iff_left Nat.two_pos, Nat.mul_div_cancel_left b Nat.two_pos,
          ih (by omega) (by omega), Nat.succ_le_succ_iff]

/-- The exponents of R134, `a mod 2^j = 0`, are those up to the machine's count. -/
theorem mod_two_pow_eq_zero_iff_le_ctzValue {z : Config.CtzZero} {a : Nat} (h0 : a ≠ 0) (hlt : a < 2 ^ 64)
    (j : Nat) : a % 2 ^ j = 0 ↔ j ≤ ctzValue z a := by
  rw [ctzValue, if_neg h0, ← Nat.dvd_iff_mod_eq_zero, two_pow_dvd_iff_le_trailingZeros h0 hlt]

/-- CTZ never faults: its count is at most 64. -/
theorem execCtz_completes (rd rs1 : Reg) (s : State) :
    ∃ t, execCtz rd rs1 s = .next t ∧ Completes rd (ctzValue s.cfg.ctzZero (s.val rs1)) s t :=
  commitOk_completes ((ctzValue_le _ _).trans (by decide))

/-- CTZ of 0 gives the parameter `CTZ_ZERO`. -/
theorem execCtz_completes_of_zero {rd rs1 : Reg} {s : State} {z : Config.CtzZero} (h0 : s.val rs1 = 0)
    (hz : s.cfg.ctzZero = z) : ∃ t, execCtz rd rs1 s = .next t ∧ Completes rd (ctzZeroValue z) s t := by
  have h := execCtz_completes rd rs1 s
  rwa [ctzValue, if_pos h0, hz] at h

/-! ### The statements -/

/-- Settles O38: the class is `bw` of the operand, at most 62, so the three results pass the check of `Commit`. -/
theorem classifierGivesTheMinimumClass : Obligations.ClassifierGivesTheMinimumClass := by
  refine fun rd rs1 s => ⟨rfl, rfl, rfl, fun hv => ?_⟩
  have hle : ebw (s.val rs1) ≤ 64 := Nat.add_le_add_right (bw_le _) 2
  have hmax : 64 ≤ maxValue := by decide
  refine ⟨bw (s.val rs1), bw_mem _, lt_two_pow_bw hv, fun c => bw_le_of_lt_two_pow, ?_, ?_, ?_⟩
  · exact commitOk_completes ((Nat.le_add_right _ 2).trans (hle.trans hmax))
  · exact commitOk_completes (hle.trans hmax)
  · exact commitOk_completes ((Nat.div_le_self _ 8).trans (hle.trans hmax))

/-- Settles O39: the count is itself a power that divides, and every other is at most it
(`mod_two_pow_eq_zero_iff_le_ctzValue`); of 0 it is the parameter. -/
theorem ctzCountsTrailingZeros : Obligations.CtzCountsTrailingZeros := by
  refine fun rd rs1 s => ⟨rfl, fun h0 hz => ?_, fun h0 hz => ?_, fun h0 => ?_⟩ <;> rw [exec]
  · exact execCtz_completes_of_zero h0 hz
  · exact execCtz_completes_of_zero h0 hz
  · have hiff := mod_two_pow_eq_zero_iff_le_ctzValue (z := s.cfg.ctzZero) h0 (s.reg rs1).isLt
    obtain ⟨t, ht, hc⟩ := execCtz_completes rd rs1 s
    exact ⟨_, t, (hiff _).mpr (Nat.le_refl _), fun j => (hiff j).mp, ht, hc⟩

end Sys2Proof.Machine
end

section
/-! The wire format (42_codec.md R140, R141, R145): `be` reads back what `bigEndian` writes, the first byte declares
the length, and the machine's encoding of a value is the one of its minimum length. -/

namespace Sys2Proof.Machine

/-! ### Big-endian integers -/

theorem be_append_singleton (bs : List Byte) (b : Byte) : be (bs ++ [b]) = be bs * 256 + b.toNat := by
  simp [be]

theorem bigEndian_length (w l : Nat) : (bigEndian w l).length = l := by simp [bigEndian]

/-- The last byte is the low one, and those before it are the bytes of the quotient by 2^8. -/
theorem bigEndian_succ (w l : Nat) :
    bigEndian w (l + 1) = bigEndian (w / 2 ^ 8) l ++ [BitVec.ofNat 8 (w % 256)] := by
  have hinit : ∀ i ∈ List.range l, BitVec.ofNat 8 (w / 2 ^ (8 * (l + 1 - 1 - i)) % 256)
      = BitVec.ofNat 8 (w / 2 ^ 8 / 2 ^ (8 * (l - 1 - i)) % 256) := fun i hi => by
    have hexp : 8 * (l + 1 - 1 - i) = 8 + 8 * (l - 1 - i) := by
      have := List.mem_range.mp hi
      omega
    rw [hexp, pow_add, Nat.div_div_eq_div_mul]
  rw [bigEndian, List.range_succ, List.map_append, List.map_congr_left hinit]
  simp [bigEndian]

/-- The big-endian bytes of an integer have its value, as far as they hold it. -/
theorem be_bigEndian (w l : Nat) : be (bigEndian w l) = w % 2 ^ (8 * l) := by
  induction l generalizing w with
  | zero => simp [bigEndian, be, Nat.mod_one]
  | succ l ih =>
    have hpow : 2 ^ (8 * (l + 1)) = 2 ^ 8 * 2 ^ (8 * l) := by rw [← pow_add, Nat.mul_succ, Nat.add_comm]
    rw [bigEndian_succ, be_append_singleton, ih, hpow, Nat.mod_mul, BitVec.toNat_ofNat]
    omega

theorem bigEndian_eq_cons {w l : Nat} (hl : 1 ≤ l) :
    ∃ bs, bigEndian w l = BitVec.ofNat 8 (w / 2 ^ (8 * (l - 1)) % 256) :: bs := by
  obtain ⟨n, rfl⟩ := Nat.exists_eq_add_of_le' hl
  rw [bigEndian, List.range_succ_eq_map, List.map_cons]
  exact ⟨_, rfl⟩

/-! ### The declared length (R140, R141) -/

/-- The length a first byte declares, as the statements write it: bits 7:6 are the quotient by 64. -/
theorem wireLen_eq (b : Byte) : wireLen b = 2 ^ (b.toNat / 64) := by
  have hlt : b.toNat / 64 < 4 := by have := b.isLt; omega
  rw [wireLen, BitVec.extractLsb'_toNat, Nat.shiftRight_eq_div_pow, Nat.mod_eq_of_lt hlt]

theorem one_le_wireLen (b : Byte) : 1 ≤ wireLen b := Nat.two_pow_pos _

theorem wireLen_le (b : Byte) : wireLen b ≤ 8 := by
  rcases wireLen_cases b with e | e | e | e <;> omega

/-- The rows of R140's table: a length, the two bits that declare it and `pfx` of it, and its usable bits, a class of
41_classify.md R130. -/
theorem wireLengths_row :
    ∀ lp ∈ wireLengths, 1 ≤ lp.1 ∧ lp.1 ≤ 8 ∧ lp.2 < 4 ∧ 2 ^ lp.2 = lp.1 ∧ pfx lp.1 = lp.2
      ∧ 8 * lp.1 - 2 ∈ [6, 14, 30, 62] := by decide

/-- The first byte of an encoding declares its length: its bits 7:6 are the table's for that length. -/
theorem wireLen_firstByte {l p v : Nat} (h : (l, p) ∈ wireLengths) (hv : v < 2 ^ (8 * l - 2)) :
    wireLen (BitVec.ofNat 8 ((p * 2 ^ (8 * l - 2) + v) / 2 ^ (8 * (l - 1)) % 256)) = l := by
  obtain ⟨hl, -, hp, hpow, -⟩ := wireLengths_row _ h
  have hexp : 2 ^ (8 * (l - 1)) * 64 = 2 ^ (8 * l - 2) := by
    have hsum : 8 * (l - 1) + 6 = 8 * l - 2 := by omega
    exact hsum ▸ (pow_add 2 (8 * (l - 1)) 6).symm
  have hquot : (p * 2 ^ (8 * l - 2) + v) / 2 ^ (8 * (l - 1)) / 64 = p := by
    rw [Nat.div_div_eq_div_mul, hexp, Nat.mul_comm, Nat.mul_add_div (Nat.two_pow_pos _),
      Nat.div_eq_of_lt hv, Nat.add_zero]
  have htop : (p * 2 ^ (8 * l - 2) + v) / 2 ^ (8 * (l - 1)) % 256 % 2 ^ 8 / 64 = p := by omega
  rw [wireLen_eq, BitVec.toNat_ofNat, htop]
  exact hpow

theorem wireValue_of_length {bs : List Byte} {l : Nat} (h : bs.length = l) :
    wireValue bs l = be bs % 2 ^ (8 * l - 2) := by
  rw [wireValue, List.take_of_length_le h.le]

/-- Decoding inverts encoding (R141, R145): the bytes of any encoding of a value, the minimum one or not, declare their
number and carry the value. -/
theorem decode_bigEndian {l p v : Nat} (h : (l, p) ∈ wireLengths) (hv : v < 2 ^ (8 * l - 2)) :
    ∃ b0 bs, bigEndian (p * 2 ^ (8 * l - 2) + v) l = b0 :: bs ∧ bs.length + 1 = l ∧ wireLen b0 = l
      ∧ be (b0 :: bs) % 2 ^ (8 * l - 2) = v := by
  obtain ⟨hl, -⟩ := wireLengths_row _ h
  obtain ⟨bs, hbs⟩ := bigEndian_eq_cons (w := p * 2 ^ (8 * l - 2) + v) hl
  have hlen : bs.length + 1 = l := by rw [← List.length_cons, ← hbs, bigEndian_length]
  refine ⟨_, bs, hbs, hlen, wireLen_firstByte h hv, ?_⟩
  have hdvd : 2 ^ (8 * l - 2) ∣ 2 ^ (8 * l) := Nat.pow_dvd_pow 2 (Nat.sub_le _ 2)
  rw [← hbs, be_bigEndian, Nat.mod_mod_of_dvd _ hdvd, Nat.mul_add_mod', Nat.mod_eq_of_lt hv]

/-! ### The minimum length -/

/-- The table's row of the length `elen` gives a value. -/
theorem elen_row (v : Nat) : (elen v, pfx (elen v)) ∈ wireLengths := by
  rcases elen_cases v with e | e | e | e <;> rw [e] <;> decide

theorem elen_lt_sixteen (v : Nat) : elen v < 16 := by
  rcases elen_cases v with e | e | e | e <;> omega

/-- The usable bits of the minimum length are the value's class (41_classify.md R130). -/
theorem usableBits_elen (v : Nat) : 8 * elen v - 2 = bw v := by
  rw [elen, ebw]
  have hmem := bw_mem v
  simp only [List.mem_cons, List.not_mem_nil, or_false] at hmem
  omega

theorem lt_two_pow_usableBits_elen {v : Nat} (h : v ≤ maxValue) : v < 2 ^ (8 * elen v - 2) :=
  usableBits_elen v ▸ lt_two_pow_bw h

/-- The shortest length that holds a value is `elen` of it. -/
theorem elen_eq_of_minimum {v : Nat} {lp : Nat × Nat} (hlp : lp ∈ wireLengths) (hv : v < 2 ^ (8 * lp.1 - 2))
    (hmin : ∀ lq ∈ wireLengths, v < 2 ^ (8 * lq.1 - 2) → lp.1 ≤ lq.1) : elen v = lp.1 := by
  obtain ⟨hl, hl8, -, -, -, hclass⟩ := wireLengths_row lp hlp
  have hmax : v ≤ maxValue :=
    Nat.le_pred_of_lt (hv.trans_le (Nat.pow_le_pow_right Nat.two_pos (by omega : 8 * lp.1 - 2 ≤ 62)))
  have hle : lp.1 ≤ elen v := hmin _ (elen_row v) (lt_two_pow_usableBits_elen hmax)
  have hge : 8 * elen v - 2 ≤ 8 * lp.1 - 2 := usableBits_elen v ▸ bw_le_of_lt_two_pow hclass hv
  omega

/-- The machine's encoding is the big-endian integer of R145. -/
theorem wireEncode_eq (v : Nat) :
    wireEncode v = bigEndian (pfx (elen v) * 2 ^ (8 * elen v - 2) + v) (elen v) := by
  refine List.map_congr_left fun i _ => BitVec.eq_of_toNat_eq ?_
  simp [wireByte]

end Sys2Proof.Machine
end

section
/-! The codec commands (42_codec.md R142, R146, R149, R150): the state each leaves, case by case, and the statements
that follow. -/

namespace Sys2Proof.Machine

/-! ### WBUF and STATUS -/

theorem Holds.cons {s : State} {off : Nat} {b : Byte} {bs : List Byte} (h : Holds s off (b :: bs)) :
    s.byteAt off = some b ∧ Holds s (off + 1) bs := by
  refine ⟨h 0 (Nat.succ_pos _), fun i hi => ?_⟩
  rw [Nat.add_assoc, Nat.add_comm 1 i]
  exact h (i + 1) (Nat.succ_lt_succ hi)

theorem Holds.of_byteAt {s t : State} {off : Nat} {bs : List Byte} (h : Holds s off bs)
    (heq : ∀ a, t.byteAt a = s.byteAt a) : Holds t off bs := fun i hi => (heq _).trans (h i hi)

/-- `MemWrite` leaves its bytes in WBUF. -/
theorem writeBytes_holds (s : State) (off : Nat) (bs : List Byte) : Holds (s.writeBytes off bs) off bs := by
  intro i hi
  rw [writeBytes_byteAt, dif_pos ⟨Nat.le_add_right _ _, by omega⟩]
  simp

theorem writeBytes_byteAt_of_outside {s : State} {off a : Nat} {bs : List Byte}
    (h : a < off ∨ off + bs.length ≤ a) : (s.writeBytes off bs).byteAt a = s.byteAt a := by
  rw [writeBytes_byteAt, dif_neg (by omega)]

/-- All that `MemRead` does: the bytes it gives, each written one in its place, and a count of draws that only unwritten
bytes raise (20_memory.md R52, R56). -/
theorem readBytes_result (s : State) (a n : Nat) :
    ∃ bs d, s.readBytes a n = (bs, { s with draws := d }) ∧ bs.length = n
      ∧ (∀ (k : Nat) (hk : k < bs.length) (b : Byte), s.byteAt (a + k) = some b → bs[k] = b)
      ∧ ((∀ k, k < bs.length → s.byteAt (a + k) ≠ none) → d = s.draws) := by
  obtain ⟨d, hd⟩ := readBytes_state s a n
  have hlen := readBytes_length s a n
  refine ⟨_, d, Prod.ext rfl hd, hlen, fun k hk b hb => ?_, fun hwritten => ?_⟩
  · exact (List.getElem_eq_iff hk).mpr (readBytes_getElem? (hlen ▸ hk) hb)
  · have hdraws := readBytes_draws (hlen ▸ hwritten)
    rwa [hd] at hdraws

/-- A change that keeps STATUS may come before the write of ERR, LEN and REQ. -/
theorem CodecStatus.of_status {e : ErrCode} {l r : Nat} {s u t : State} (h : CodecStatus e l r u t)
    (hu : u.status = s.status) : CodecStatus e l r s t :=
  ⟨h.err, h.len, h.req, hu ▸ h.fault, hu ▸ h.fcause⟩

/-- A region that leaves WBUF raises REGION, whatever the command was to do (20_memory.md R53). -/
theorem regionCheck_faults {off len : Nat} {s : State} (k : Out) (h : s.cfg.wbufSize < off + len) :
    ∃ t, regionCheck off len s k = .next t ∧ Faults .region s t :=
  regionCheck_of_lt k h ▸ raiseFault_next .region s

/-! ### ENC -/

theorem execEnc_of_short {rv ro rc : Reg} {s : State} (hr : s.val ro + s.val rc ≤ s.cfg.wbufSize)
    (h : s.val rc < elen (s.val rv)) :
    ∃ t, execEnc rv ro rc s = .next t ∧ ReportsCodec .bufferTooSmall 0 (elen (s.val rv)) s t := by
  rw [execEnc, regionCheck_of_le _ hr, if_pos h]
  exact reportCodec_next .bufferTooSmall s (by decide) (elen_lt_sixteen _)

/-- What ENC leaves when its value fits: the encoding at the offset, every other byte as before, and OK with the
length. -/
structure Encodes (off v : Nat) (s t : State) : Prop where
  holds : Holds t off (wireEncode v)
  others : ∀ a, (a < off ∨ off + elen v ≤ a) → t.byteAt a = s.byteAt a
  draws : t.draws = s.draws
  regs : SameRegs s t
  status : CodecStatus .ok (elen v) 0 s t
  ports : SamePorts s t

theorem writeBytes_setCodec_encodes (s : State) (off v : Nat) :
    Encodes off v s ((s.writeBytes off (wireEncode v)).setCodec .ok (elen v) 0) := by
  obtain ⟨-, hdin, hstatus, hcfg, hpending, hresp, hdraws⟩ := writeBytes_frame s off (wireEncode v)
  exact
    { holds := writeBytes_holds s off _
      others := fun a ha => writeBytes_byteAt_of_outside (by rwa [wireEncode_length])
      draws := hdraws
      regs := writeBytes_reg s off _
      status := (setCodec_codecStatus _ .ok (elen_lt_sixteen v) (by decide)).of_status hstatus
      ports := ⟨hdin, hcfg, hpending, hresp⟩ }

theorem execEnc_of_fits {rv ro rc : Reg} {s : State} (hr : s.val ro + s.val rc ≤ s.cfg.wbufSize)
    (h : elen (s.val rv) ≤ s.val rc) :
    ∃ t, execEnc rv ro rc s = .next t ∧ Encodes (s.val ro) (s.val rv) s t := by
  rw [execEnc, regionCheck_of_le _ hr, if_neg h.not_gt]
  exact ⟨_, rfl, writeBytes_setCodec_encodes s _ _⟩

/-! ### DEC -/

theorem execDec_of_empty {rd ro ra : Reg} {s : State} (hr : s.val ro + s.val ra ≤ s.cfg.wbufSize)
    (h : s.val ra = 0) : ∃ t, execDec rd ro ra s = .next t ∧ ReportsCodec .empty 0 0 s t := by
  rw [execDec, regionCheck_of_le _ hr, if_pos h]
  exact reportCodec_next .empty s (by decide) (by decide)

/-- A written first byte is read without a draw. -/
theorem execDec_of_written {rd ro ra : Reg} {s : State} {b0 : Byte}
    (hr : s.val ro + s.val ra ≤ s.cfg.wbufSize) (ha : 1 ≤ s.val ra) (hb : s.byteAt (s.val ro) = some b0) :
    execDec rd ro ra s = decFrom rd (s.val ro) (s.val ra) b0 s := by
  rw [execDec, regionCheck_of_le _ hr, if_neg (Nat.pos_iff_ne_zero.mp ha), readByte_written hb]

theorem decFrom_of_short {rd : Reg} {off avail : Nat} {b0 : Byte} {s : State} (h : avail < wireLen b0) :
    ∃ t, decFrom rd off avail b0 s = .next t ∧ ReportsCodec .bufferTooSmall 0 (wireLen b0) s t := by
  rw [decFrom, if_pos h]
  exact reportCodec_next .bufferTooSmall s (by decide) ((wireLen_le b0).trans_lt (by decide))

/-- With the bytes it needs at hand DEC commits the value of those it reads, and its reads change at most the count of
draws. -/
theorem decFrom_of_fits {rd : Reg} {off avail d : Nat} {b0 : Byte} {bs : List Byte} {s : State}
    (h : wireLen b0 ≤ avail) (hlen : bs.length + 1 = wireLen b0)
    (hread : s.readBytes (off + 1) bs.length = (bs, { s with draws := d })) :
    decFrom rd off avail b0 s
        = .next (({ s with draws := d }.setReg rd
            (BitVec.ofNat 64 (be (b0 :: bs) % 2 ^ (8 * wireLen b0 - 2)))).setCodec .ok (wireLen b0) 0)
      ∧ be (b0 :: bs) % 2 ^ (8 * wireLen b0 - 2) ≤ maxValue := by
  have hle : wireValue (b0 :: bs) (wireLen b0) ≤ maxValue := wireValue_le _ (wireLen_le b0)
  have hvalue : wireValue (b0 :: bs) (wireLen b0) = be (b0 :: bs) % 2 ^ (8 * wireLen b0 - 2) :=
    wireValue_of_length hlen
  have hcount : wireLen b0 - 1 = bs.length := by omega
  rw [← hvalue, decFrom, if_neg h.not_gt, decTail, hcount, hread, commitThen_of_le _ hle]
  exact ⟨rfl, hle⟩

/-- DEC of any encoding of a value, of the minimum length or not, gives the value and the length consumed. -/
theorem execDec_of_holds {rd ro ra : Reg} {s : State} {l p v : Nat} (h : (l, p) ∈ wireLengths)
    (hv : v < 2 ^ (8 * l - 2)) (hr : s.val ro + s.val ra ≤ s.cfg.wbufSize) (ha : l ≤ s.val ra)
    (hs : Holds s (s.val ro) (bigEndian (p * 2 ^ (8 * l - 2) + v) l)) :
    execDec rd ro ra s = .next ((s.setReg rd (BitVec.ofNat 64 v)).setCodec .ok l 0) := by
  obtain ⟨b0, bs, hbs, hlen, hdecl, hval⟩ := decode_bigEndian h hv
  obtain ⟨hb, htail⟩ := (hbs ▸ hs).cons
  have hfits : wireLen b0 ≤ s.val ra := hdecl.trans_le ha
  obtain ⟨hdec, -⟩ := decFrom_of_fits (rd := rd) (d := s.draws) hfits (hlen.trans hdecl.symm)
    (readBytes_written htail)
  rw [execDec_of_written hr ((one_le_wireLen b0).trans hfits) hb, hdec, hdecl, hval]

/-! ### STATUS as a number -/

/-- STATUS as the sum of its fields, each in its place (10_state.md R28). -/
theorem Status.word_toNat (t : Status) :
    t.word.toNat = t.err.code.toNat + 2 ^ 4 * t.len.toNat + 2 ^ 8 * t.req.toNat
      + 2 ^ 12 * (if t.fault then 1 else 0) + 2 ^ 16 * t.fcause.code.toNat := by
  have herr := t.err.code.isLt
  have hlen := t.len.isLt
  have hreq := t.req.isLt
  have hfault := (BitVec.ofBool t.fault).isLt
  simp only [Status.word, BitVec.toNat_append]
  rw [← Nat.shiftLeft_add_eq_or_of_lt herr, ← Nat.shiftLeft_add_eq_or_of_lt hlen,
    ← Nat.shiftLeft_add_eq_or_of_lt hreq, ← Nat.shiftLeft_add_eq_or_of_lt hfault,
    ← Nat.shiftLeft_add_eq_or_of_lt (by simp), ← Nat.shiftLeft_add_eq_or_of_lt (by omega)]
  simp only [Nat.shiftLeft_eq, BitVec.toNat_ofNat]
  cases t.fault <;> simp <;> omega

/-- Without a fault nothing stands above ERR, LEN and REQ. -/
theorem Status.word_lt_of_not_faulted {t : Status} (hlegal : t.legal) (h : t.fault = false) :
    t.word.toNat < 2 ^ 12 := by
  obtain ⟨-, -, -, -, -, -, hcause⟩ := hlegal
  have hnone : t.fcause = .none := by simpa [h] using hcause
  have := t.err.code.isLt
  have := t.len.isLt
  have := t.req.isLt
  rw [Status.word_toNat, h, hnone]
  simp [Cause.code]
  omega

/-! ### The statements -/

/-- Settles O40: the bytes after the first are those `MemRead` gives (`readBytes_result`), and the value is theirs
(`decFrom_of_fits`). -/
theorem decDecodesItsRegion : Obligations.DecDecodesItsRegion := by
  intro rd ro ra s
  simp only [← wireLen_eq]
  refine ⟨rfl, regionCheck_faults _, execDec_of_empty, fun b0 hr ha hb hshort => ?_, fun b0 hr ha hb hfits => ?_⟩ <;>
    rw [exec, execDec_of_written hr ha hb]
  · exact decFrom_of_short hshort
  · obtain ⟨bs, d, hread, hlen, hplaces, hdraws⟩ := readBytes_result s (s.val ro + 1) (wireLen b0 - 1)
    have hcount : bs.length + 1 = wireLen b0 := by rw [hlen, Nat.sub_add_cancel (one_le_wireLen b0)]
    obtain ⟨hdec, hval⟩ := decFrom_of_fits (rd := rd) hfits hcount (hlen ▸ hread)
    have hlt : wireLen b0 < 16 := (wireLen_le b0).trans_lt (by decide)
    exact ⟨bs, _, hcount, hplaces, hdec, setReg_val_self hval, setReg_sameRegsBut { s with draws := d } rd _,
      (setCodec_codecStatus _ .ok hlt (by decide)).of_status rfl, rfl, fun _ => rfl, ⟨rfl, rfl, rfl, rfl⟩, hdraws⟩

/-- Settles O44: the length is `elen` of the value (`elen_eq_of_minimum`), and the bytes written are its encoding. -/
theorem encEncodesItsValue : Obligations.EncEncodesItsValue := by
  refine fun rv ro rc s => ⟨rfl, regionCheck_faults _, fun lp hlp hv hmin hr => ?_⟩
  have hlen : elen (s.val rv) = lp.1 := elen_eq_of_minimum hlp hv hmin
  obtain ⟨-, -, -, -, hpfx, -⟩ := wireLengths_row lp hlp
  refine ⟨fun hshort => hlen ▸ execEnc_of_short hr (hlen ▸ hshort), fun hfits => ?_⟩
  obtain ⟨t, ht, hholds, hothers, hdraws, hregs, hstatus, hports⟩ := execEnc_of_fits hr (hlen ▸ hfits)
  rw [wireEncode_eq, hlen, hpfx] at hholds
  rw [hlen] at hothers hstatus
  exact ⟨t, ht, hholds, hothers, hdraws, hregs, hstatus, hports⟩

/-- Settles O45: ENC leaves the minimum encoding at the offset, and DEC of an encoding gives its value
(`execDec_of_holds`). -/
theorem encThenDecGivesTheValueBack : Obligations.EncThenDecGivesTheValueBack := by
  intro rv ro rc rd qo qa s t u hv hr hcap henc hbytes _ hoff havail hregion
  obtain ⟨t', ht', ht⟩ := execEnc_of_fits hr hcap
  cases ht'.symm.trans henc
  have hu : Holds u (u.val qo) (wireEncode (s.val rv)) := hoff ▸ ht.holds.of_byteAt hbytes
  rw [wireEncode_eq] at hu
  have hdec := execDec_of_holds (rd := rd) (elen_row _) (lt_two_pow_usableBits_elen hv) hregion havail hu
  have hlen : (BitVec.ofNat 4 (elen (s.val rv))).toNat = elen (s.val rv) :=
    Nat.mod_eq_of_lt (elen_lt_sixteen _)
  exact ⟨_, hdec, setReg_val_self hv, rfl, hlen, ht.status.len⟩

/-- Settles O46: LEN is at most MAX, so its `Commit` completes (`execMflen_moves`). -/
theorem mflenCopiesLen : Obligations.MflenCopiesLen := fun rd s => ⟨rfl, execMflen_moves rd s⟩

/-- Settles O47: the value committed is STATUS as a number, the sum of its fields (`Status.word_toNat`). -/
theorem mfstCopiesStatus : Obligations.MfstCopiesStatus := by
  refine fun rd s => ⟨rfl, ?_⟩
  obtain ⟨t, ht, hmoves⟩ := execMfst_moves rd s
  refine ⟨t, ht, s.status.word_toNat ▸ hmoves, fun hlegal hfault => ?_⟩
  rw [hmoves.dest]
  exact Status.word_lt_of_not_faulted hlegal hfault

end Sys2Proof.Machine
end

section
/-! The arithmetic commands (43_alu_arith.md R161 to R165): each makes its own check, then ends in `Commit` of its
exact result, whose check decides the rest (R160). -/

namespace Sys2Proof.Machine

/-! ### Each command's own check -/

theorem execSub_of_lt {rd rs1 rs2 : Reg} {s : State} (h : s.val rs1 < s.val rs2) :
    execSub rd rs1 rs2 s = raiseFault .overflow s := if_pos h

theorem execSub_of_le {rd rs1 rs2 : Reg} {s : State} (h : s.val rs2 ≤ s.val rs1) :
    execSub rd rs1 rs2 s = commitOk rd (s.val rs1 - s.val rs2) s := if_neg h.not_gt

theorem execMul_of_le {rd rs1 rs2 : Reg} {s : State} (h : 2 ^ 64 ≤ s.val rs1 * s.val rs2) :
    execMul rd rs1 rs2 s = raiseFault .overflow s := if_pos h

theorem execMul_of_lt {rd rs1 rs2 : Reg} {s : State} (h : s.val rs1 * s.val rs2 < 2 ^ 64) :
    execMul rd rs1 rs2 s = commitOk rd (s.val rs1 * s.val rs2) s := if_neg h.not_ge

theorem execDiv_of_zero {rd rs1 rs2 : Reg} {s : State} (h : s.val rs2 = 0) :
    execDiv rd rs1 rs2 s = raiseFault .divZero s := if_pos h

theorem execDiv_of_ne_zero {rd rs1 rs2 : Reg} {s : State} (h : s.val rs2 ≠ 0) :
    execDiv rd rs1 rs2 s = commitOk rd (s.val rs1 / s.val rs2) s := if_neg h

theorem execRem_of_zero {rd rs1 rs2 : Reg} {s : State} (h : s.val rs2 = 0) :
    execRem rd rs1 rs2 s = raiseFault .divZero s := if_pos h

theorem execRem_of_ne_zero {rd rs1 rs2 : Reg} {s : State} (h : s.val rs2 ≠ 0) :
    execRem rd rs1 rs2 s = commitOk rd (s.val rs1 % s.val rs2) s := if_neg h

/-! ### The statements -/

/-- Settles O51: q and r are the Euclidean quotient and remainder of the dividend, neither above it, so their
`Commit` completes. -/
theorem divRemDivideOrFault : Obligations.DivRemDivideOrFault := by
  refine fun rd rs1 rs2 s => ⟨rfl, rfl, fun hzero => ?_, fun hne hle => ?_⟩ <;> simp only [exec]
  · rw [execDiv_of_zero hzero, execRem_of_zero hzero]
    exact ⟨raiseFault_next .divZero s, raiseFault_next .divZero s⟩
  · rw [execDiv_of_ne_zero hne, execRem_of_ne_zero hne]
    exact ⟨s.val rs1 / s.val rs2, s.val rs1 % s.val rs2, (Nat.div_add_mod _ _).symm,
      Nat.mod_lt _ (Nat.pos_of_ne_zero hne), commitOk_completes ((Nat.div_le_self _ _).trans hle),
      commitOk_completes ((Nat.mod_le _ _).trans hle)⟩

/-- Settles O48: ADD has no check of its own, so that of `Commit` is the whole case distinction. -/
theorem addAddsOrRange : Obligations.AddAddsOrRange := fun _ _ _ _ =>
  ⟨rfl, fun hle => commitOk_completes hle, fun hlt => commitOk_faults hlt⟩

/-- Settles O49: a difference is at most its minuend, so past the underflow check `Commit` completes. -/
theorem subSubtractsOrOverflow : Obligations.SubSubtractsOrOverflow := by
  refine fun rd rs1 rs2 s => ⟨rfl, fun hle hmax => ?_, fun hlt => ?_⟩ <;> rw [exec]
  · rw [execSub_of_le hle]
    exact commitOk_completes ((Nat.sub_le _ _).trans hmax)
  · rw [execSub_of_lt hlt]
    exact raiseFault_next .overflow s

/-- Settles O50: below 2^64 the product goes to `Commit`, which raises RANGE above MAX; from 2^64 on it never gets
there. -/
theorem mulMultipliesOrFaults : Obligations.MulMultipliesOrFaults := by
  refine fun rd rs1 rs2 s => ⟨rfl, fun hle => ?_, fun hlow hhigh => ?_, fun hover => ?_⟩ <;> rw [exec]
  · rw [execMul_of_lt (hle.trans_lt (by decide))]
    exact commitOk_completes hle
  · rw [execMul_of_lt hhigh]
    exact commitOk_faults hlow
  · rw [execMul_of_le hover]
    exact raiseFault_next .overflow s

end Sys2Proof.Machine
end

section
/-! The logical and shift commands (44_alu_bitwise.md R171 to R176): the value each hands to `Commit`, and when that
value is at most MAX, which is when bits 62 and 63 of its 64-bit representation are 0 (R170). -/

namespace Sys2Proof.Machine

/-! ### Values below bit 62 -/

theorem lt_two_pow_62_iff {v : Nat} : v < 2 ^ 62 ↔ v ≤ maxValue := Nat.lt_succ_iff

theorem lt_two_pow_of_le_maxValue {v n : Nat} (hv : v ≤ maxValue) (hn : 62 ≤ n) : v < 2 ^ n :=
  (lt_two_pow_62_iff.mpr hv).trans_le (Nat.pow_le_pow_right (by decide) hn)

/-- A word is in range iff its bits 62 and 63 are 0 (10_state.md R23). -/
theorem toNat_le_maxValue_iff {w : Word} :
    w.toNat ≤ maxValue ↔ w.getLsbD 62 = false ∧ w.getLsbD 63 = false := by
  refine ⟨fun h => ⟨Nat.testBit_eq_false_of_lt (lt_two_pow_of_le_maxValue h (by decide)),
      Nat.testBit_eq_false_of_lt (lt_two_pow_of_le_maxValue h (by decide))⟩,
    fun ⟨h62, h63⟩ => lt_two_pow_62_iff.mp (Nat.lt_pow_two_of_testBit _ fun i hi => ?_)⟩
  obtain rfl | rfl | h64 : i = 62 ∨ i = 63 ∨ 64 ≤ i := by omega
  · exact h62
  · exact h63
  · exact BitVec.getLsbD_of_ge w i h64

theorem maxValue_lt_toNat_iff {w : Word} :
    maxValue < w.toNat ↔ w.getLsbD 62 = true ∨ w.getLsbD 63 = true := by
  rw [← Nat.not_le, toNat_le_maxValue_iff, not_and_or, Bool.not_eq_false, Bool.not_eq_false]

/-! ### What each command commits -/

/-- An operation that sets no bit which neither operand has keeps values in range, so its `Commit` completes
(R170). -/
theorem commitOk_completes_of_bitwise {f : Bool → Bool → Bool} (hf : f false false = false) {rd : Reg} {s : State}
    {a b v : Nat} (ha : a ≤ maxValue) (hb : b ≤ maxValue)
    (hv : ∀ n, v.testBit n = f (a.testBit n) (b.testBit n)) :
    ∃ u t, commitOk rd v s = .next t ∧ Completes rd u s t
      ∧ ∀ n, u.testBit n = f (a.testBit n) (b.testBit n) := by
  have v_lt : v < 2 ^ 62 := Nat.lt_pow_two_of_testBit v fun n hn => by
    rw [hv, Nat.testBit_eq_false_of_lt (lt_two_pow_of_le_maxValue ha hn),
      Nat.testBit_eq_false_of_lt (lt_two_pow_of_le_maxValue hb hn), hf]
  obtain ⟨t, ht, hc⟩ := commitOk_completes (rd := rd) (s := s) (lt_two_pow_62_iff.mp v_lt)
  exact ⟨v, t, ht, hc, hv⟩

theorem maxValue_lt_notValue_w64 {a : Nat} (h : a ≤ maxValue) : maxValue < notValue .w64 a := by
  simp only [notValue, maxValue] at *
  omega

/-- Shifting the 64-bit representation left already gives 0 from an amount of 64 on (R175). -/
theorem execShl_eq (rd rs1 rs2 : Reg) (s : State) :
    execShl rd rs1 rs2 s = commitOk rd (s.reg rs1 <<< s.val rs2).toNat s := by
  rw [execShl, shlValue]
  split
  · next h => rw [BitVec.shiftLeft_eq_zero h, BitVec.toNat_zero]
  · rw [BitVec.toNat_shiftLeft, Nat.shiftLeft_eq, State.val]

theorem State.reg_ushiftRight_toNat (s : State) (r : Reg) (n : Nat) :
    (s.reg r >>> n).toNat = s.val r / 2 ^ n := by
  rw [BitVec.toNat_ushiftRight, Nat.shiftRight_eq_div_pow, State.val]

/-- Shifting the 64-bit representation right already gives 0 from an amount of 64 on (R176). -/
theorem execShr_eq (rd rs1 rs2 : Reg) (s : State) :
    execShr rd rs1 rs2 s = commitOk rd (s.reg rs1 >>> s.val rs2).toNat s := by
  rw [execShr, shrValue]
  split
  · next h => rw [BitVec.ushiftRight_eq_zero h, BitVec.toNat_zero]
  · rw [State.reg_ushiftRight_toNat]

/-! ### The statements -/

/-- Settles O53: the three operations act on each bit of the words apart, and none makes a 1 of two 0 bits. -/
theorem logicActsBitByBit : Obligations.LogicActsBitByBit := fun rd rs1 rs2 s => ⟨rfl, rfl, rfl, fun h1 h2 =>
  ⟨commitOk_completes_of_bitwise (f := and) rfl h1 h2 fun n => by simp [State.val],
    commitOk_completes_of_bitwise (f := or) rfl h1 h2 fun n => by simp [State.val],
    commitOk_completes_of_bitwise (f := xor) rfl h1 h2 fun n => by simp [State.val]⟩⟩

/-- Settles O55: `Commit` alone decides between completing and RANGE, by bits 62 and 63 of the shifted word. -/
theorem shlShiftsOrRange : Obligations.ShlShiftsOrRange := by
  refine fun rd rs1 rs2 s => ⟨rfl, fun hn => ?_, fun _ => ⟨fun hclear => ?_, fun hset => ?_⟩⟩ <;>
    rw [exec, execShl_eq]
  · rw [BitVec.shiftLeft_eq_zero hn]
    exact commitOk_completes (Nat.zero_le _)
  · exact commitOk_completes (toNat_le_maxValue_iff.mpr hclear)
  · exact commitOk_faults (maxValue_lt_toNat_iff.mpr hset)

/-- Settles O56: a shift right is at most its operand, and an operand below 2^62 has no bit left from an amount of
62 on. -/
theorem shrShiftsWithZeroFill : Obligations.ShrShiftsWithZeroFill := by
  refine fun rd rs1 rs2 s => ⟨rfl, fun hmax => ?_⟩
  obtain ⟨t, ht, hc⟩ := commitOk_completes (rd := rd) (s := s) (v := (s.reg rs1 >>> s.val rs2).toNat)
    ((State.reg_ushiftRight_toNat s rs1 _).trans_le ((Nat.div_le_self _ _).trans hmax))
  refine ⟨t, (execShr_eq rd rs1 rs2 s).trans ht, hc, fun hn => ?_⟩
  rw [hc.dest, State.reg_ushiftRight_toNat]
  exact Nat.div_eq_of_lt (lt_two_pow_of_le_maxValue hmax hn)

/-- Settles O54: the 64-bit complement of a value in range has bit 63 set, the 62-bit one is at most MAX. -/
theorem notComplementsAtItsWidth : Obligations.NotComplementsAtItsWidth := by
  refine fun rd rs1 s => ⟨rfl, fun hmax => ⟨fun h64 => ?_, fun h62 => ?_⟩⟩ <;> rw [exec, execNot]
  · rw [h64]
    exact commitOk_faults (maxValue_lt_notValue_w64 hmax)
  · rw [h62]
    exact commitOk_completes (Nat.sub_le _ _)

end Sys2Proof.Machine
end

section
/-! The comparisons (45_alu_compare.md R181 to R187): each hands `Commit` the truth value of its relation, which is
never above MAX, so that none of them can fault (R180). -/

namespace Sys2Proof.Machine

/-! ### Truth values -/

theorem truthValue_of_iff {b : Bool} {p : Prop} [Decidable p] (h : b = true ↔ p) :
    truthValue b = if p then 1 else 0 := if_congr h rfl rfl

/-- A test that decides a relation, committed as a truth value, completes with 1 or 0 as the relation holds or
not. -/
theorem commitOk_truthValue_completes {b : Bool} {p : Prop} [Decidable p] (h : b = true ↔ p) {rd : Reg} {s : State} :
    ∃ t, commitOk rd (truthValue b) s = .next t ∧ Completes rd (if p then 1 else 0) s t :=
  truthValue_of_iff h ▸ commitOk_completes (truthValue_le b)

theorem Completes.dest_eq_one_iff {rd : Reg} {p : Prop} [Decidable p] {s t : State}
    (h : Completes rd (if p then 1 else 0) s t) : t.val rd = 1 ↔ p := by
  rw [h.dest]
  split <;> simp [*]

/-- Exactly one of LT, EQ and GT is true of two values. -/
theorem truthValues_trichotomy (a b : Nat) :
    (if a < b then 1 else 0) + (if a = b then 1 else 0) + (if a > b then 1 else 0) = 1 := by
  rcases Nat.lt_trichotomy a b with hlt | heq | hgt
  · simp [hlt, hlt.ne, hlt.not_gt]
  · simp [heq]
  · simp [hgt, hgt.ne', hgt.not_gt]

theorem truthValues_complement {p q : Prop} [Decidable p] [Decidable q] (h : p ↔ ¬ q) :
    (if p then 1 else 0) + (if q then 1 else 0) = 1 := by
  by_cases hq : q <;> simp [h, hq]

/-! ### LT by name, for its transitivity -/

theorem execLt_completes (rd rs1 rs2 : Reg) (s : State) :
    ∃ t, exec (.lt rd rs1 rs2) s = .next t ∧ Completes rd (if s.val rs1 < s.val rs2 then 1 else 0) s t :=
  commitOk_truthValue_completes decide_eq_true_iff

/-- LT answers 1 exactly where its first source is below its second (R183). -/
theorem execLt_eq_one_iff {rd rs1 rs2 : Reg} {s t : State} (h : exec (.lt rd rs1 rs2) s = .next t) :
    t.val rd = 1 ↔ s.val rs1 < s.val rs2 := by
  obtain ⟨l, hl, hlt⟩ := execLt_completes rd rs1 rs2 s
  cases hl.symm.trans h
  exact hlt.dest_eq_one_iff

/-! ### The statements -/

/-- Settles O57: the test of each command decides its relation, so its truth value is committed
(`commitOk_truthValue_completes`). -/
theorem comparisonsWriteTheTruthValue : Obligations.ComparisonsWriteTheTruthValue := fun _ _ _ _ =>
  ⟨rfl, rfl, rfl, rfl, rfl, rfl,
    commitOk_truthValue_completes beq_iff_eq, commitOk_truthValue_completes bne_iff_ne,
    execLt_completes _ _ _ _, commitOk_truthValue_completes decide_eq_true_iff,
    commitOk_truthValue_completes decide_eq_true_iff, commitOk_truthValue_completes decide_eq_true_iff⟩

/-- Settles O58: by O57 the results are truth values of relations on the naturals, whose trichotomy, complements
and transitivity they take over. -/
theorem comparisonsAreATotalOrder : Obligations.ComparisonsAreATotalOrder := by
  intro rd rs1 rs2 s
  obtain ⟨-, -, -, -, -, -, ⟨e, he, heq⟩, ⟨n, hn, hne⟩, ⟨l, hl, hlt⟩, ⟨m, hm, hle⟩, ⟨g, hg, hgt⟩, ⟨h, hh, hge⟩⟩ :=
    comparisonsWriteTheTruthValue rd rs1 rs2 s
  refine ⟨e, n, l, m, g, h, he, hn, hl, hm, hg, hh, ?_, ?_, ?_, ?_,
    hlt.dest_eq_one_iff, heq.dest_eq_one_iff, hgt.dest_eq_one_iff, fun rs3 p hp hl1 hp1 => ?_⟩
  · rw [hlt.dest, heq.dest, hgt.dest]
    exact truthValues_trichotomy _ _
  · rw [hle.dest, hgt.dest]
    exact truthValues_complement Nat.not_lt.symm
  · rw [hge.dest, hlt.dest]
    exact truthValues_complement Nat.not_lt.symm
  · rw [hne.dest, heq.dest]
    exact truthValues_complement Iff.rfl
  · have h12 : s.val rs1 < s.val rs2 := hlt.dest_eq_one_iff.mp hl1
    have h23 : s.val rs2 < s.val rs3 := (execLt_eq_one_iff hp).mp hp1
    obtain ⟨q, hq, -⟩ := execLt_completes rd rs1 rs3 s
    exact ⟨q, hq, (execLt_eq_one_iff hq).mpr (h12.trans h23)⟩

end Sys2Proof.Machine
end

section
/-! A faulted block (60_exceptions.md R205, R206): no host operation but ISSUE and RD_STATUS reads STATUS, none but RESET
and ISSUE writes it, and an ISSUE is ignored. -/

namespace Sys2Proof.Machine

/-! ### The ports of WBUF -/

theorem portWrBuf_next {a : Nat} {b : Byte} {s t : State} (h : portWrBuf a b s = .next t) :
    a < s.cfg.wbufSize ∧ t = s.writeByte a b := by
  unfold portWrBuf at h
  split_ifs at h with ha
  cases h
  exact ⟨ha, rfl⟩

theorem portRdBuf_next {a : Nat} {s t : State} (h : portRdBuf a s = .next t) :
    a < s.cfg.wbufSize ∧ t = { (s.readByte a).2 with resp := some (.byte (s.readByte a).1) } := by
  unfold portRdBuf at h
  split_ifs at h with ha
  cases h
  exact ⟨ha, rfl⟩

/-! ### The same operation under another STATUS -/

theorem readByte_withStatus (s : State) (a : Nat) (x : Status) :
    { s with status := x }.readByte a = ((s.readByte a).1, { (s.readByte a).2 with status := x }) := by
  rcases readByte_cases s a with ⟨b, hb, hr⟩ | ⟨hn, hr⟩
  · rw [hr, readByte_written (s := { s with status := x }) hb]
  · rw [hr, readByte_unwritten (s := { s with status := x }) hn]

theorem portWrBuf_withStatus {a : Nat} {b : Byte} {s t : State} (x : Status) (h : portWrBuf a b s = .next t) :
    portWrBuf a b { s with status := x } = .next { t with status := x } := by
  obtain ⟨ha, rfl⟩ := portWrBuf_next h
  exact if_pos ha

theorem portRdBuf_withStatus {a : Nat} {s t : State} (x : Status) (h : portRdBuf a s = .next t) :
    portRdBuf a { s with status := x } = .next { t with status := x } := by
  obtain ⟨ha, rfl⟩ := portRdBuf_next h
  rw [portRdBuf, if_pos ha, readByte_withStatus]

/-- WR_DIN, WR_BUF, RD_BUF and RD_V do under any STATUS what they do under another, and hand it on. -/
theorem perform_withStatus {op : HostOp} {s t : State} (x : Status) (hreset : op ≠ .reset)
    (hstatus : op ≠ .rdStatus) (hissue : ∀ c, op ≠ .issue c) (h : perform op s = .next t) :
    perform op { s with status := x } = .next { t with status := x } := by
  cases op with
  | reset => exact absurd rfl hreset
  | wrDin w => cases h; rfl
  | wrBuf a b => exact portWrBuf_withStatus x h
  | rdBuf a => exact portRdBuf_withStatus x h
  | rdV i => cases h; rfl
  | rdStatus => exact absurd rfl hstatus
  | issue c => exact absurd rfl (hissue c)

/-! ### STATUS of a faulted block -/

/-- While FAULT = 1 only RESET writes STATUS: an ISSUE is ignored, RD_STATUS only reads, and the other operations hand
on the STATUS they start from. -/
theorem perform_status_of_faulted {op : HostOp} {s t : State} (hs : s.status.fault = true) (hreset : op ≠ .reset)
    (h : perform op s = .next t) : t.status = s.status := by
  by_cases hissue : ∃ c, op = .issue c
  · obtain ⟨c, rfl⟩ := hissue
    cases (issue_faulted hs).symm.trans h
    rfl
  by_cases hread : op = .rdStatus
  · subst hread
    cases h
    rfl
  have hsame : perform op s = .next { t with status := s.status } :=
    perform_withStatus s.status hreset hread (not_exists.mp hissue) h
  have ht : t = { t with status := s.status } := Host.Outcome.next.inj (h.symm.trans hsame)
  rw [ht]

theorem perform_leaves_fault_iff {op : HostOp} {s t : State} (hs : s.status.fault = true)
    (h : perform op s = .next t) : t.status.fault = false ↔ op = .reset := by
  constructor
  · intro ht
    by_contra hreset
    rw [perform_status_of_faulted hs hreset h, hs] at ht
    cases ht
  · rintro rfl
    cases h
    rfl

/-! ### The statements -/

/-- Settles O9: the ISSUE is ignored (`issue_faulted`), only RESET writes STATUS (`perform_status_of_faulted`), and the
ports that do not name STATUS do not depend on it (`perform_withStatus`). -/
theorem faultedBlockIgnoresCommands : Obligations.FaultedBlockIgnoresCommands := fun s hs =>
  ⟨fun _ rest hpending => (step_issue hpending).trans (issue_faulted (s := s.accept rest) hs),
    fun _ _ => perform_status_of_faulted hs,
    fun _ _ => perform_leaves_fault_iff hs,
    rfl,
    fun _ _ x => perform_withStatus x⟩

/-- Settles O26: of the endings of a command (`exec_ending`) only the fault sets FAULT. -/
theorem faultingCommandChangesOnlyTheLatch : Obligations.FaultingCommandChangesOnlyTheLatch :=
  fun _ _ _ hs h ht => (exec_ending h).faults_of_fault hs ht

end Sys2Proof.Machine
end

section
/-! The state RESET leaves (70_reset_and_hazards.md R230), part by part. -/

namespace Sys2Proof.Machine

/-! ### The values after RESET -/

theorem applyReset_reg_eq_zero (s : State) (r : Reg) : (applyReset s).reg r = 0 := by
  rw [State.reg_eq, applyReset_regs]
  exact Vector.getElem_replicate r.isLt

theorem applyReset_status_word (s : State) : (applyReset s).status.word = 0 := by
  rw [applyReset_status]
  decide

/-- WBUF stands with no byte listed, so every address is unwritten (R56). -/
theorem applyReset_byteAt_eq_none (s : State) (a : Nat) : (applyReset s).byteAt a = none := rfl

/-! ### The step -/

/-- A step that takes a RESET resets the block, whatever STATUS it had. -/
theorem step_reset {s : State} {rest : List HostOp} (h : s.pending = .reset :: rest) :
    step s = .next (applyReset (s.accept rest)) :=
  step_cons h

/-- Settles O11: the step is the RESET (`step_reset`), and no value it leaves comes from the state before it. -/
theorem resetPutsEveryRegisterAtZero : Obligations.ResetPutsEveryRegisterAtZero := fun s rest hpending =>
  ⟨applyReset (s.accept rest), step_reset hpending, applyReset_reg_eq_zero _, rfl, applyReset_status_word _,
    rfl, rfl, rfl, applyReset_byteAt_eq_none _⟩

end Sys2Proof.Machine
end

section
/-! Decoding and encoding are inverse (30_encoding.md R72 to R77): each row of the opcode table is tied to the layout
of its format, and each layout to its fields. -/

namespace Sys2Proof

/-! ### The layout of a form -/

/-- The word that a form lays out under an opcode with the operand fields of `c` (R73). -/
def Form.layout : Form → BitVec 8 → Command → Command
  | .r3 _, op, c => encodeR3 op (rdField c) (rs1Field c) (rs2Field c)
  | .r2 _, op, c => encodeR2 op (rdField c) (rs1Field c)
  | .r1 _, op, c => encodeR1 op (rdField c)
  | .imm _, op, c => encodeI op (rdField c) (immField c)

/-- The bits a form fixes: the opcode's and those that must be zero (R73). -/
def Form.mask : Form → Command
  | .r3 _ => 0xFF007FFF
  | .r2 _ => 0xFF03FFFF
  | .r1 _ => 0xFF1FFFFF
  | .imm _ => 0xFF1F0000

/-- A row agrees with its form: mask and `match` are the form's, and the command it builds from a word is encoded in
the form's layout. -/
structure OpcodeRow.Agrees (r : OpcodeRow) : Prop where
  mask : r.mask = r.form.mask
  matchWord : r.matchWord = r.op ++ 0#24
  encode : ∀ c, encode (buildForm r.form c) = r.form.layout r.op c

/-- Every row of the table agrees with its form (R75). -/
theorem opcodeTable_agrees : ∀ r ∈ opcodeTable, r.Agrees := by
  simp only [opcodeTable, constructRows, codecRows, aluRows, List.cons_append, List.nil_append, List.forall_mem_cons,
    List.not_mem_nil, false_implies, implies_true, and_true]
  and_intros <;> exact ⟨rfl, rfl, fun _ => rfl⟩

/-! ### From a command to its word and back -/

/-- A word is decoded by the row of its opcode, if it has that row's fixed bits. -/
theorem decode_of_findRow {op : BitVec 8} {r : OpcodeRow} {c : Command}
    (hfind : opcodeTable.find? (fun q => q.op == op) = some r) (hop : opField c = op)
    (hmask : c &&& r.form.mask = op ++ 0#24) : decode c = .ok (buildForm r.form c) := by
  obtain ⟨hr, hrop⟩ := findRow_eq_some_iff.mp (hop ▸ hfind)
  have hagrees := opcodeTable_agrees r hr
  have hmatch : r.matches c := by
    rw [OpcodeRow.matches, hagrees.mask, hmask, hagrees.matchWord, hrop, hop]
  exact decode_eq_ok_iff.mpr ⟨r, hr, hmatch, rfl⟩

theorem decode_encodeR3 {op : BitVec 8} {n : String} {w m : Command} {mk : Reg → Reg → Reg → Instr} {a b c : Reg}
    (hfind : opcodeTable.find? (fun q => q.op == op) = some ⟨op, n, w, m, .r3 mk⟩) :
    decode (encodeR3 op a b c) = .ok (mk a b c) := by
  obtain ⟨hop, ha, hb, hc⟩ := encodeR3_fields op a b c
  rw [decode_of_findRow hfind hop (encodeR3_mask op a b c), buildForm, ha, hb, hc]

theorem decode_encodeR2 {op : BitVec 8} {n : String} {w m : Command} {mk : Reg → Reg → Instr} {a b : Reg}
    (hfind : opcodeTable.find? (fun q => q.op == op) = some ⟨op, n, w, m, .r2 mk⟩) :
    decode (encodeR2 op a b) = .ok (mk a b) := by
  obtain ⟨hop, ha, hb⟩ := encodeR2_fields op a b
  rw [decode_of_findRow hfind hop (encodeR2_mask op a b), buildForm, ha, hb]

theorem decode_encodeR1 {op : BitVec 8} {n : String} {w m : Command} {mk : Reg → Instr} {a : Reg}
    (hfind : opcodeTable.find? (fun q => q.op == op) = some ⟨op, n, w, m, .r1 mk⟩) :
    decode (encodeR1 op a) = .ok (mk a) := by
  obtain ⟨hop, ha⟩ := encodeR1_fields op a
  rw [decode_of_findRow hfind hop (encodeR1_mask op a), buildForm, ha]

theorem decode_encodeI {op : BitVec 8} {n : String} {w m : Command} {mk : Reg → BitVec 16 → Instr} {a : Reg}
    {imm : BitVec 16} (hfind : opcodeTable.find? (fun q => q.op == op) = some ⟨op, n, w, m, .imm mk⟩) :
    decode (encodeI op a imm) = .ok (mk a imm) := by
  obtain ⟨hop, ha, himm⟩ := encodeI_fields op a imm
  rw [decode_of_findRow hfind hop (encodeI_mask op a imm), buildForm, ha, himm]

/-- Settles O1: each command's opcode finds its row, and the row builds it from the fields of its layout. -/
theorem decodeInvertsEncode : Obligations.DecodeInvertsEncode := by
  intro i
  cases i
  case ldi => exact decode_encodeI rfl
  case ldmax | cvtdU | cvtdS | cvtdF | cvtcU | cvtcS | cvttU | cvttS | cvtxU | cvtxS | cvtxF | mflen | mfst =>
    exact decode_encodeR1 rfl
  case bitw | ebitw | elen | ctz | not => exact decode_encodeR2 rfl
  all_goals exact decode_encodeR3 rfl

/-! ### From a word to its command and back -/

/-- A field that the mask covers below the opcode is 0 in a word that has the fixed bits. -/
theorem field_eq_zero {c m : Command} {op : BitVec 8} {i n : Nat} (h : c &&& m = op ++ 0#24)
    (hm : m.extractLsb' i n = BitVec.allOnes n) (hi : i + n ≤ 24) : c.toNat / 2 ^ i % 2 ^ n = 0 := by
  have hfield : c.extractLsb' i n = (op ++ 0#24).extractLsb' i n := by
    rw [← h, BitVec.extractLsb'_and, hm, BitVec.and_allOnes]
  have hzero : (op ++ 0#24).extractLsb' i n = 0#n := by
    ext k hk
    have hlow : i + k < 24 := by omega
    rw [BitVec.getElem_extractLsb', BitVec.getLsbD_append, if_pos hlow, BitVec.getLsbD_zero, BitVec.getElem_zero]
  rw [← Nat.shiftRight_eq_div_pow, ← BitVec.extractLsb'_toNat, hfield, hzero, BitVec.toNat_zero]

/-- A word with the fixed bits of a form is laid out by it: every bit is the opcode's, a field's or fixed. -/
theorem Form.layout_eq_self {f : Form} {op : BitVec 8} {c : Command} (hop : opField c = op)
    (hmask : c &&& f.mask = op ++ 0#24) : f.layout op c = c := by
  have hc := c.isLt
  apply BitVec.eq_of_toNat_eq
  rw [← hop]
  cases f <;> rw [Form.mask] at hmask
  case r3 mk =>
    have hlow := field_eq_zero (i := 0) (n := 15) hmask (by decide) (by decide)
    rw [Form.layout, encodeR3_toNat, opField_toNat, rdField_toNat, rs1Field_toNat, rs2Field_toNat]
    omega
  case r2 mk =>
    have hlow := field_eq_zero (i := 0) (n := 18) hmask (by decide) (by decide)
    rw [Form.layout, encodeR2_toNat, opField_toNat, rdField_toNat, rs1Field_toNat]
    omega
  case r1 mk =>
    have hlow := field_eq_zero (i := 0) (n := 21) hmask (by decide) (by decide)
    rw [Form.layout, encodeR1_toNat, opField_toNat, rdField_toNat]
    omega
  case imm mk =>
    have hmiddle := field_eq_zero (i := 16) (n := 5) hmask (by decide) (by decide)
    rw [Form.layout, encodeI_toNat, opField_toNat, rdField_toNat, immField_toNat]
    omega

/-- Settles O2: the row that matches the word encodes what it builds in its form's layout, which is the word itself
(`Form.layout_eq_self`). -/
theorem encodeInvertsDecode : Obligations.EncodeInvertsDecode := by
  intro c i hdecode
  obtain ⟨r, hr, hmatch, rfl⟩ := decode_eq_ok_iff.mp hdecode
  have hagrees := opcodeTable_agrees r hr
  rw [hagrees.encode, Form.layout_eq_self (op_eq_of_matches hr hmatch).symm]
  rw [← hagrees.mask, ← hagrees.matchWord]
  exact hmatch

/-- Settles O6: the words are evaluated. -/
theorem specWordsDecode : Obligations.SpecWordsDecode := by
  unfold Obligations.SpecWordsDecode
  decide

end Sys2Proof
end

section
/-! What no command changes (10_state.md §3, §4; 20_memory.md §4), read off the endings of `exec_ending` for the
commands outside the codec and off their own cases for DEC and ENC. -/

namespace Sys2Proof.Machine

theorem byteAt_eq_of_wbuf {s t : State} (h : t.wbuf = s.wbuf) (a : Nat) : t.byteAt a = s.byteAt a :=
  congrArg (readCell · a) h

/-- The codec's two commands that name a region of WBUF. -/
theorem dec_or_enc_of_codec {i : Instr} (h : statusGroup i = .codec) :
    (∃ rd ro ra, i = .dec rd ro ra) ∨ ∃ rv ro rc, i = .enc rv ro rc := by
  cases i <;> simp only [statusGroup, reduceCtorEq] at h
  case dec rd ro ra => exact .inl ⟨rd, ro, ra, rfl⟩
  case enc rv ro rc => exact .inr ⟨rv, ro, rc, rfl⟩

/-- What a command outside the codec leaves unchanged: everything but its destination and STATUS. -/
structure ChangesOnlyDestination (i : Instr) (s t : State) : Prop where
  regs : ∀ r, destination i ≠ some r → t.reg r = s.reg r
  bytes : SameBytes s t
  ports : SamePorts s t

theorem SameRegsBut.of_destination {i : Instr} {rd : Reg} {s t : State} (hd : destination i = some rd)
    (h : SameRegsBut rd s t) : ∀ r, destination i ≠ some r → t.reg r = s.reg r := fun r hr =>
  h r fun heq => hr (heq ▸ hd)

theorem CommandEnding.changesOnlyDestination {i : Instr} {s t : State} (h : CommandEnding i s t)
    (hg : statusGroup i ≠ .codec) : ChangesOnlyDestination i s t := by
  cases h with
  | faults _ _ h => exact ⟨fun r _ => h.regs r, h.bytes, h.ports⟩
  | completes _ _ _ hd _ h => exact ⟨h.regs.of_destination hd, h.bytes, h.ports⟩
  | reports _ h => exact ⟨fun r _ => h.regs r, h.bytes, h.ports⟩
  | moves _ _ _ hd _ h => exact ⟨h.regs.of_destination hd, h.bytes, h.ports⟩
  | codec hcodec => exact absurd hcodec hg

/-- DEC reads WBUF and writes none of it. -/
theorem execDec_frame {rd ro ra : Reg} {s t : State} (h : execDec rd ro ra s = .next t) :
    SamePorts s t ∧ SameRegsBut rd s t ∧ t.wbuf = s.wbuf := by
  rcases execDec_next h with hf | hr | ⟨n, l, -, rfl⟩ | ⟨n, l, v, -, -, rfl⟩
  · exact ⟨hf.ports, fun r _ => hf.regs r, hf.bytes.cells⟩
  · exact ⟨hr.ports, fun r _ => hr.regs r, hr.bytes.cells⟩
  · exact ⟨⟨rfl, rfl, rfl, rfl⟩, fun _ _ => rfl, rfl⟩
  · exact ⟨⟨rfl, rfl, rfl, rfl⟩, setReg_sameRegsBut { s with draws := n } rd _, rfl⟩

/-- ENC writes no register, draws nothing and leaves every byte outside those of its encoding. -/
theorem execEnc_frame {rv ro rc : Reg} {s t : State} (h : execEnc rv ro rc s = .next t) :
    SamePorts s t ∧ SameRegs s t ∧ t.draws = s.draws
      ∧ ∀ a, (a < s.val ro ∨ s.val ro + elen (s.val rv) ≤ a) → t.byteAt a = s.byteAt a := by
  rcases execEnc_cases h with ⟨-, hf⟩ | ⟨-, -, hr⟩ | ⟨-, -, rfl⟩
  · exact ⟨hf.ports, hf.regs, hf.bytes.draws, fun a _ => hf.bytes.bytes a⟩
  · exact ⟨hr.ports, hr.regs, hr.bytes.draws, fun a _ => hr.bytes.bytes a⟩
  · have henc := writeBytes_setCodec_encodes s (s.val ro) (s.val rv)
    exact ⟨henc.ports, henc.regs, henc.draws, henc.others⟩

/-- Settles O24: outside the codec only the destination and STATUS change (`exec_ending`); DEC and ENC have their own
frames. -/
theorem commandFrame : Obligations.CommandFrame := by
  intro i s t h
  by_cases hg : statusGroup i = .codec
  · rcases dec_or_enc_of_codec hg with ⟨rd, ro, ra, rfl⟩ | ⟨rv, ro, rc, rfl⟩
    · obtain ⟨hports, hregs, hwbuf⟩ := execDec_frame h
      exact ⟨hports, hregs.of_destination rfl, nofun, fun _ => byteAt_eq_of_wbuf hwbuf,
        fun hdec => absurd rfl (hdec rd ro ra)⟩
    · obtain ⟨hports, hregs, hdraws, hothers⟩ := execEnc_frame h
      refine ⟨hports, fun r _ => hregs r, fun rv' ro' rc' heq => ?_, fun henc => absurd rfl (henc rv ro rc),
        fun _ => hdraws⟩
      cases heq
      exact hothers
  · have hkeeps := (exec_ending h).changesOnlyDestination hg
    exact ⟨hkeeps.ports, hkeeps.regs, fun _ _ _ _ a _ => hkeeps.bytes.bytes a, fun _ => hkeeps.bytes.bytes,
      fun _ => hkeeps.bytes.draws⟩

end Sys2Proof.Machine
end

section
/-! The outcome of each command outside the codec by the shared operation it ends in, with the causes and errors that
60_exceptions.md R203 and R204 list for it; and what the lists say of every command. -/

namespace Sys2Proof.Machine

/-! ### The outcome of a command of the first group -/

/-- The operations a command of the first row of 10_state.md R34's table can end in: a fault it lists, a report it
lists, or `Commit` of a value, which is at most MAX for registers in range unless the command lists RANGE. -/
inductive AluOutcome (i : Instr) (s : State) : Out → Prop
  | fault (c : Cause) (hc : c ∈ possibleCauses i) : AluOutcome i s (raiseFault c s)
  | report (he : .notExact ∈ possibleErrors i) : AluOutcome i s (report .notExact s)
  | commit (rd : Reg) (v : Nat) (hv : ValuesInRange s → v ≤ maxValue ∨ .range ∈ possibleCauses i) :
      AluOutcome i s (commitOk rd v s)

theorem and_le_maxValue {a b : Word} (h : a.toNat ≤ maxValue) : (a &&& b).toNat ≤ maxValue := by
  rw [BitVec.toNat_and]
  exact Nat.and_le_left.trans h

theorem or_le_maxValue {a b : Word} (ha : a.toNat ≤ maxValue) (hb : b.toNat ≤ maxValue) :
    (a ||| b).toNat ≤ maxValue := by
  rw [← lt_two_pow_62_iff] at *
  exact Nat.or_lt_two_pow ha hb

theorem xor_le_maxValue {a b : Word} (ha : a.toNat ≤ maxValue) (hb : b.toNat ≤ maxValue) :
    (a ^^^ b).toNat ≤ maxValue := by
  rw [← lt_two_pow_62_iff] at *
  exact Nat.xor_lt_two_pow ha hb

theorem exec_aluOutcome {i : Instr} (s : State) (hg : statusGroup i = .errOnly) : AluOutcome i s (exec i s) := by
  cases i <;> simp only [statusGroup, reduceCtorEq] at hg
  case ldi rd imm => exact .commit rd _ fun _ => .inl ((Nat.le_of_lt imm.isLt).trans (by decide))
  case ldmax rd => exact .commit rd _ fun _ => .inl (Nat.le_refl _)
  case cvtcU rd =>
    rw [exec, execCvtcU_eq]
    exact .commit rd _ fun _ => .inl (Nat.min_le_right _ _)
  case cvtcS rd =>
    rw [exec, execCvtcS_eq]
    exact .commit rd _ fun _ => .inl (toNat_le_maxValue (by omega))
  case cvttU rd =>
    rw [exec, execCvttU_eq]
    exact .commit rd _ fun _ => .inl (low62_le _)
  case cvttS rd =>
    rw [exec, execCvttS_eq]
    exact .commit rd _ fun _ => .inl (low62_le _)
  case bitw rd a =>
    exact .commit rd _ fun _ => .inl ((bw_le _).trans (by decide))
  case ebitw rd a =>
    exact .commit rd _ fun _ => .inl ((Nat.add_le_add_right (bw_le _) 2).trans (by decide))
  case elen rd a =>
    exact .commit rd _ fun _ => .inl ((Nat.le_of_lt (elen_lt_sixteen _)).trans (by decide))
  case ctz rd a => exact .commit rd _ fun _ => .inl ((ctzValue_le _ _).trans (by decide))
  case cvtdS rd =>
    rw [exec, execCvtdS]
    split
    · exact .fault .range (by simp [possibleCauses])
    · exact .commit rd _ fun _ => .inr (by simp [possibleCauses])
  case cvtdF rd =>
    rw [exec, execCvtdF]
    split
    · exact .fault .fpInvalid (by simp [possibleCauses])
    · exact .fault .fpInvalid (by simp [possibleCauses])
    · split
      · exact .fault .fpInvalid (by simp [possibleCauses])
      · exact .commit rd _ fun _ => .inr (by simp [possibleCauses])
  case cvtxS rd =>
    rw [exec, execCvtxS]
    split
    · exact .report (by simp [possibleErrors])
    · exact .commit rd _ fun _ => .inr (by simp [possibleCauses])
  case cvtxF rd =>
    rw [exec, execCvtxF]
    split
    · exact .report (by simp [possibleErrors])
    · exact .report (by simp [possibleErrors])
    · split
      · exact .report (by simp [possibleErrors])
      · exact .commit rd _ fun _ => .inr (by simp [possibleCauses])
  case sub rd a b =>
    rw [exec, execSub]
    split
    · exact .fault .overflow (by simp [possibleCauses])
    · exact .commit rd _ fun hs => .inl ((Nat.sub_le _ _).trans (hs a))
  case mul rd a b =>
    rw [exec, execMul]
    split
    · exact .fault .overflow (by simp [possibleCauses])
    · exact .commit rd _ fun _ => .inr (by simp [possibleCauses])
  case div rd a b =>
    rw [exec, execDiv]
    split
    · exact .fault .divZero (by simp [possibleCauses])
    · exact .commit rd _ fun hs => .inl ((Nat.div_le_self _ _).trans (hs a))
  case rem rd a b =>
    rw [exec, execRem]
    split
    · exact .fault .divZero (by simp [possibleCauses])
    · exact .commit rd _ fun hs => .inl ((Nat.mod_le _ _).trans (hs a))
  case and rd a b => exact .commit rd _ fun hs => .inl (and_le_maxValue (hs a))
  case or rd a b => exact .commit rd _ fun hs => .inl (or_le_maxValue (hs a) (hs b))
  case xor rd a b => exact .commit rd _ fun hs => .inl (xor_le_maxValue (hs a) (hs b))
  case shr rd a b =>
    rw [exec, execShr_eq, State.reg_ushiftRight_toNat]
    exact .commit rd _ fun hs => .inl ((Nat.div_le_self _ _).trans (hs a))
  case eq rd _ _ | ne rd _ _ | lt rd _ _ | le rd _ _ | gt rd _ _ | ge rd _ _ =>
    exact .commit rd _ fun _ => .inl (truthValue_le _)
  case cvtdU rd | cvtxU rd | add rd _ _ | not rd _ | shl rd _ _ =>
    exact .commit rd _ fun _ => .inr (by simp [possibleCauses])

/-! ### Every command ends in a next state (70_reset_and_hazards.md R236) -/

theorem commitThen_exists_next (rd : Reg) (v : Nat) (s : State) (f : State → State) :
    ∃ t, commitThen rd v s f = .next t := by
  unfold commitThen
  split
  · exact ⟨_, rfl⟩
  · exact ⟨_, rfl⟩

theorem regionCheck_exists_next (off len : Nat) (s : State) {k : Out} (h : ∃ t, k = .next t) :
    ∃ t, regionCheck off len s k = .next t := by
  unfold regionCheck
  split
  · exact ⟨_, rfl⟩
  · exact h

theorem AluOutcome.exists_next {i : Instr} {s : State} {o : Out} (h : AluOutcome i s o) : ∃ t, o = .next t := by
  cases h with
  | fault c => exact ⟨_, rfl⟩
  | report => exact ⟨_, rfl⟩
  | commit rd v => exact commitThen_exists_next rd v s _

theorem execDec_exists_next (rd ro ra : Reg) (s : State) : ∃ t, execDec rd ro ra s = .next t := by
  refine regionCheck_exists_next _ _ s ?_
  split
  · exact ⟨_, rfl⟩
  · unfold decFrom
    split
    · exact ⟨_, rfl⟩
    · exact commitThen_exists_next rd _ _ _

theorem execEnc_exists_next (rv ro rc : Reg) (s : State) : ∃ t, execEnc rv ro rc s = .next t := by
  refine regionCheck_exists_next _ _ s ?_
  split
  · exact ⟨_, rfl⟩
  · exact ⟨_, rfl⟩

/-- MFLEN and MFST are the commands that leave STATUS alone. -/
theorem mflen_or_mfst_of_unchanged {i : Instr} (h : statusGroup i = .unchanged) :
    ∃ rd, i = .mflen rd ∨ i = .mfst rd := by
  cases i <;> simp only [statusGroup, reduceCtorEq] at h
  case mflen rd => exact ⟨rd, .inl rfl⟩
  case mfst rd => exact ⟨rd, .inr rfl⟩

/-- Settles O23: each shared operation answers a next state, and so does each command's choice among them. -/
theorem everyCommandEndsInOneStep : Obligations.EveryCommandEndsInOneStep := by
  intro i s
  cases hg : statusGroup i with
  | errOnly => exact (exec_aluOutcome s hg).exists_next
  | unchanged =>
    obtain ⟨rd, rfl | rfl⟩ := mflen_or_mfst_of_unchanged hg
    · exact commitThen_exists_next rd _ s id
    · exact commitThen_exists_next rd _ s id
  | codec =>
    rcases dec_or_enc_of_codec hg with ⟨rd, ro, ra, rfl⟩ | ⟨rv, ro, rc, rfl⟩
    · exact execDec_exists_next rd ro ra s
    · exact execEnc_exists_next rv ro rc s

/-! ### The causes listed (60_exceptions.md R203) -/

theorem AluOutcome.cause_mem {i : Instr} {s t : State} (h : AluOutcome i s (.next t)) (hv : ValuesInRange s)
    (hs : s.status.fault = false) (ht : t.status.fault = true) : t.status.fcause ∈ possibleCauses i := by
  generalize ho : Host.Outcome.next t = o at h
  cases h with
  | fault c hc => exact (raiseFault_faults ho.symm).status ▸ hc
  | report he =>
    cases ho
    simp [hs] at ht
  | commit rd v hcommit =>
    rcases commitOk_cases ho.symm with ⟨hlt, hf⟩ | ⟨-, hc⟩
    · have hrange : .range ∈ possibleCauses i := (hcommit hv).resolve_left hlt.not_ge
      exact hf.status ▸ hrange
    · simp [hc.status, hs] at ht

theorem region_mem_possibleCauses {i : Instr} (h : statusGroup i = .codec) : .region ∈ possibleCauses i := by
  rcases dec_or_enc_of_codec h with ⟨rd, ro, ra, rfl⟩ | ⟨rv, ro, rc, rfl⟩ <;> exact List.mem_singleton_self _

/-- Settles O27: the first group's causes are its outcomes' (`exec_aluOutcome`), MFLEN and MFST complete, and the codec
raises REGION alone. -/
theorem faultCausesAreThoseListed : Obligations.FaultCausesAreThoseListed := by
  intro i s t hv hs h ht
  cases hg : statusGroup i with
  | errOnly => exact (h ▸ exec_aluOutcome s hg).cause_mem hv hs ht
  | unchanged =>
    obtain ⟨_, _, -, -, hm⟩ := exec_moves hg h
    simp [hm.status, hs] at ht
  | codec =>
    rcases exec_codecEnds hg h with hf | hc
    · exact hf.status ▸ region_mem_possibleCauses hg
    · obtain ⟨_, _, _, -, hstatus⟩ := hc.status
      simp [hstatus.fault, hs] at ht

/-! ### The errors listed (60_exceptions.md R204) -/

theorem AluOutcome.reports {i : Instr} {s t : State} (h : AluOutcome i s (.next t))
    (ht : t.status.fault = false) (he : t.status.err ≠ .ok) :
    .notExact ∈ possibleErrors i ∧ Reports .notExact s t := by
  generalize ho : Host.Outcome.next t = o at h
  cases h with
  | fault c hc => simp [(raiseFault_faults ho.symm).status] at ht
  | report hmem =>
    obtain ⟨u, hu, hr⟩ := report_next .notExact s
    cases hu.symm.trans ho.symm
    exact ⟨hmem, hr⟩
  | commit rd v =>
    rcases commitOk_cases ho.symm with ⟨-, hf⟩ | ⟨-, hc⟩
    · simp [hf.status] at ht
    · simp [hc.status] at he

/-- DEC that reports an error reports EMPTY or BUFFER_TOO_SMALL and writes no register (42_codec.md R142). -/
theorem execDec_reports {rd ro ra : Reg} {s t : State} (h : execDec rd ro ra s = .next t)
    (ht : t.status.fault = false) (he : t.status.err ≠ .ok) :
    t.status.err ∈ [.empty, .bufferTooSmall] ∧ SameRegs s t := by
  rcases execDec_next h with hf | hr | ⟨n, l, -, rfl⟩ | ⟨n, l, v, -, -, rfl⟩
  · simp [hf.status] at ht
  · exact ⟨by simp [hr.status.err], hr.regs⟩
  · exact ⟨by simp, fun _ => rfl⟩
  · exact absurd rfl he

/-- ENC that reports an error reports BUFFER_TOO_SMALL and writes no byte (42_codec.md R146). -/
theorem execEnc_reports {rv ro rc : Reg} {s t : State} (h : execEnc rv ro rc s = .next t)
    (ht : t.status.fault = false) (he : t.status.err ≠ .ok) :
    t.status.err = .bufferTooSmall ∧ SameRegs s t ∧ SameBytes s t := by
  rcases execEnc_cases h with ⟨-, hf⟩ | ⟨-, -, hr⟩ | ⟨-, -, rfl⟩
  · simp [hf.status] at ht
  · exact ⟨hr.status.err, hr.regs, hr.bytes⟩
  · exact absurd rfl he

/-- Settles O28: in the first group only a listed NOT_EXACT is reported (`exec_aluOutcome`), and DEC and ENC that report
have written neither register nor byte. -/
theorem reportedErrorsAreThoseListed : Obligations.ReportedErrorsAreThoseListed := by
  intro i s t _ hgroup h ht he
  cases hg : statusGroup i with
  | errOnly =>
    obtain ⟨hmem, hr⟩ := (h ▸ exec_aluOutcome s hg).reports ht he
    exact ⟨hr.status ▸ hmem, hr.regs, hr.bytes.bytes⟩
  | unchanged => exact absurd hg hgroup
  | codec =>
    rcases dec_or_enc_of_codec hg with ⟨rd, ro, ra, rfl⟩ | ⟨rv, ro, rc, rfl⟩
    · obtain ⟨hmem, hregs⟩ := execDec_reports h ht he
      obtain ⟨-, -, hwbuf⟩ := execDec_frame h
      exact ⟨hmem, hregs, byteAt_eq_of_wbuf hwbuf⟩
    · obtain ⟨herr, hregs, hbytes⟩ := execEnc_reports h ht he
      exact ⟨herr ▸ List.mem_singleton_self _, hregs, hbytes.bytes⟩

end Sys2Proof.Machine
end

section
/-! The host's ports (10_state.md R39) one by one: the state each operation leaves, where the model stops, and what no
operation but RESET, WR_DIN and ISSUE changes. -/

namespace Sys2Proof.Machine

/-! ### The step of each port -/

theorem portWrBuf_of_lt {a : Nat} {b : Byte} {s : State} (h : a < s.cfg.wbufSize) :
    portWrBuf a b s = .next (s.writeByte a b) := if_pos h

theorem portRdBuf_of_lt {a : Nat} {s : State} (h : a < s.cfg.wbufSize) :
    portRdBuf a s = .next { (s.readByte a).2 with resp := some (.byte (s.readByte a).1) } := if_pos h

theorem step_wrBuf {s : State} {a : Nat} {b : Byte} {rest : List HostOp} (h : s.pending = .wrBuf a b :: rest)
    (ha : a < s.cfg.wbufSize) : step s = .next ((s.accept rest).writeByte a b) :=
  (step_cons h).trans (portWrBuf_of_lt (s := s.accept rest) ha)

theorem step_rdBuf_written {s : State} {a : Nat} {b : Byte} {rest : List HostOp} (h : s.pending = .rdBuf a :: rest)
    (ha : a < s.cfg.wbufSize) (hb : s.byteAt a = some b) :
    step s = .next { s with pending := rest, resp := some (.byte b) } := by
  rw [step_cons h, perform, portRdBuf_of_lt (s := s.accept rest) ha, readByte_written (s := s.accept rest) hb]
  rfl

theorem step_rdBuf_unwritten {s : State} {a : Nat} {rest : List HostOp} (h : s.pending = .rdBuf a :: rest)
    (ha : a < s.cfg.wbufSize) (hb : s.byteAt a = none) :
    step s = .next { s with
      pending := rest, resp := some (.byte (Config.freeByte s.draws)), draws := s.draws + 1 } := by
  rw [step_cons h, perform, portRdBuf_of_lt (s := s.accept rest) ha, readByte_unwritten (s := s.accept rest) hb]
  rfl

/-- Settles O10: each port's step as above; a byte written reads back and the others are kept
(`State.writeByte_byteAt`). -/
theorem hostPortsActAsListed : Obligations.HostPortsActAsListed := by
  intro s rest
  refine ⟨fun w h => step_cons h, fun a b h ha => ?_, fun a b => step_rdBuf_written, fun i h => step_cons h,
    fun h => step_cons h⟩
  refine ⟨_, step_wrBuf h ha, ?_, fun k hk => ?_, rfl, rfl, rfl, rfl, rfl, rfl, rfl⟩
  · rw [State.writeByte_byteAt, if_pos rfl]
  · rw [State.writeByte_byteAt, if_neg hk.symm]
    rfl

/-- Settles O14: after the write the byte at `k` is written, and a read of a written byte changes only the answer
(`step_rdBuf_written`), so the second read is the first again. -/
theorem readReturnsTheLastByteWritten : Obligations.ReadReturnsTheLastByteWritten := by
  intro s a k b c rest ha hk hc hpending
  have hbyte : ((s.accept (.rdBuf k :: .rdBuf k :: rest)).writeByte a b).byteAt k
      = some (if k = a then b else c) := by
    rw [State.writeByte_byteAt]
    by_cases hka : k = a
    · rw [if_pos hka.symm, if_pos hka]
    · rw [if_neg (Ne.symm hka), if_neg hka]
      exact hc hka
  exact ⟨_, _, _, step_wrBuf hpending ha, step_rdBuf_written rfl hk hbyte, step_rdBuf_written rfl hk hbyte,
    rfl, rfl, rfl⟩

/-- Settles O13: each read of an unwritten byte draws the next free byte and leaves it unwritten
(`step_rdBuf_unwritten`). -/
theorem unwrittenByteIsADraw : Obligations.UnwrittenByteIsADraw := by
  intro s a rest hnone ha hpending
  exact ⟨_, _, step_rdBuf_unwritten hpending ha hnone, step_rdBuf_unwritten rfl ha hnone, rfl, rfl, rfl, hnone, rfl⟩

/-- Settles O15: no operation is pending, so the step is the idle one (`step_cases`). -/
theorem idleBlockHoldsItsState : Obligations.IdleBlockHoldsItsState := by
  intro s hidle
  rcases step_cases s with ⟨-, hstep⟩ | ⟨op, rest, hpending, -⟩
  · exact hstep
  · rw [hidle] at hpending
    cases hpending

/-- Settles O7: the step is the ISSUE (`step_issue`), which runs the command of a legal word (`issue_ok`). -/
theorem stepRunsTheDecodedCommand : Obligations.StepRunsTheDecodedCommand := fun s _ _ rest hpending hfault hdecode =>
  (step_issue hpending).trans (issue_ok (s := s.accept rest) hfault hdecode)

/-! ### Where the model stops -/

/-- The operation names the byte of WBUF at `a`. -/
def NamesByte (a : Nat) (op : HostOp) : Prop := op = .rdBuf a ∨ ∃ b, op = .wrBuf a b

theorem perform_of_absent {op : HostOp} {a : Nat} {s : State} (hop : NamesByte a op) (ha : s.cfg.wbufSize ≤ a) :
    perform op s = .fault (.wbufAddress a) := by
  rcases hop with rfl | ⟨b, rfl⟩
  · exact if_neg ha.not_gt
  · exact if_neg ha.not_gt

theorem issue_exists_next (c : Command) (s : State) : ∃ t, issue c s = .next t := by
  unfold issue
  split
  · exact ⟨s, rfl⟩
  · split
    · exact ⟨_, rfl⟩
    · exact everyCommandEndsInOneStep _ s

theorem perform_exists_next {op : HostOp} {s : State} (h : op.WellFormed s.cfg) : ∃ t, perform op s = .next t := by
  cases op with
  | wrBuf a b => exact ⟨_, portWrBuf_of_lt h⟩
  | rdBuf a => exact ⟨_, portRdBuf_of_lt h⟩
  | issue c => exact issue_exists_next c s
  | reset => exact ⟨_, rfl⟩
  | wrDin w => exact ⟨_, rfl⟩
  | rdV i => exact ⟨_, rfl⟩
  | rdStatus => exact ⟨_, rfl⟩

theorem names_absent_byte_of_not_wellFormed {op : HostOp} {p : Config.Params} (h : ¬ op.WellFormed p) :
    ∃ a, NamesByte a op ∧ p.wbufSize ≤ a := by
  cases op with
  | wrBuf a b => exact ⟨a, .inr ⟨b, rfl⟩, Nat.le_of_not_lt h⟩
  | rdBuf a => exact ⟨a, .inl rfl, Nat.le_of_not_lt h⟩
  | reset | wrDin _ | rdV _ | rdStatus | issue _ => exact absurd trivial h

/-- Settles O16: a well-formed operation is performed (`perform_exists_next`), one that is not names an absent byte. -/
theorem onlyAbsentBytesStopTheModel : Obligations.OnlyAbsentBytesStopTheModel := by
  intro s op rest hpending
  have hstop : ∀ a, NamesByte a op → s.cfg.wbufSize ≤ a → step s = .fault (.wbufAddress a) := fun a hop ha =>
    (step_cons hpending).trans (perform_of_absent (s := s.accept rest) hop ha)
  refine ⟨?_, hstop⟩
  by_cases hwf : op.WellFormed s.cfg
  · obtain ⟨t, ht⟩ := perform_exists_next (s := s.accept rest) hwf
    exact .inr ⟨t, (step_cons hpending).trans ht⟩
  · obtain ⟨a, hop, ha⟩ := names_absent_byte_of_not_wellFormed hwf
    exact .inl ⟨a, hop, ha, hstop a hop ha⟩

/-! ### What the operations leave unchanged -/

/-- A read of WBUF changes the answer and the count of draws alone. -/
theorem portRdBuf_state {a : Nat} {s t : State} (h : portRdBuf a s = .next t) :
    ∃ n r, t = { s with draws := n, resp := r } := by
  obtain ⟨-, rfl⟩ := portRdBuf_next h
  obtain ⟨n, hn⟩ := readByte_state s a
  exact ⟨n, _, by rw [hn]⟩

/-- No operation but RESET and ISSUE writes a register or STATUS. -/
theorem perform_keeps_regs_status {op : HostOp} {s t : State} (hreset : op ≠ .reset) (hissue : ∀ c, op ≠ .issue c)
    (h : perform op s = .next t) : SameRegs s t ∧ t.status = s.status := by
  cases op with
  | reset => exact absurd rfl hreset
  | issue c => exact absurd rfl (hissue c)
  | wrDin w => cases h; exact ⟨fun _ => rfl, rfl⟩
  | wrBuf a b =>
    obtain ⟨-, rfl⟩ := portWrBuf_next h
    exact ⟨fun _ => rfl, rfl⟩
  | rdBuf a =>
    obtain ⟨n, r, rfl⟩ := portRdBuf_state h
    exact ⟨fun _ => rfl, rfl⟩
  | rdV i => cases h; exact ⟨fun _ => rfl, rfl⟩
  | rdStatus => cases h; exact ⟨fun _ => rfl, rfl⟩

/-- An ISSUE leaves what no command changes: DIN, the parameters, the operations to come and the answer. -/
theorem issue_samePorts {c : Command} {s t : State} (h : issue c s = .next t) : SamePorts s t := by
  rcases issue_cases h with ⟨-, rfl⟩ | ⟨-, -, hf⟩ | ⟨-, i, -, hi⟩
  · exact .refl _
  · exact hf.ports
  · exact (commandFrame i s t hi).1

/-- An ISSUE changes a register only by running a command with that destination. -/
theorem destination_of_issue_changes {c : Command} {s t : State} {r : Reg} (h : issue c s = .next t)
    (hr : t.reg r ≠ s.reg r) : ∃ i, decode c = .ok i ∧ destination i = some r ∧ s.status.fault = false := by
  rcases issue_cases h with ⟨-, rfl⟩ | ⟨-, -, hf⟩ | ⟨hfault, i, hdecode, hi⟩
  · exact absurd rfl hr
  · exact absurd (hf.regs r) hr
  · obtain ⟨-, hregs, -⟩ := commandFrame i s t hi
    exact ⟨i, hdecode, not_not.mp fun hd => hr (hregs r hd), hfault⟩

/-- Settles O17: the ports that are no ISSUE keep registers and STATUS, and an ISSUE that changes a register runs a
command with that destination (`destination_of_issue_changes`). -/
theorem registersChangeOnlyThroughCommands : Obligations.RegistersChangeOnlyThroughCommands := by
  refine fun s t op h hreset => ⟨fun hissue => perform_keeps_regs_status hreset hissue h, fun c hop r hr => ?_⟩
  subst hop
  exact destination_of_issue_changes h hr

theorem perform_din {op : HostOp} {s t : State} (h : perform op s = .next t) (hdin : t.din ≠ s.din) :
    op = .wrDin t.din ∨ (op = .reset ∧ t.din = 0) := by
  cases op with
  | wrDin w => cases h; exact .inl rfl
  | reset => cases h; exact .inr ⟨rfl, rfl⟩
  | wrBuf a b =>
    obtain ⟨-, rfl⟩ := portWrBuf_next h
    exact absurd rfl hdin
  | rdBuf a =>
    obtain ⟨n, r, rfl⟩ := portRdBuf_state h
    exact absurd rfl hdin
  | rdV i => cases h; exact absurd rfl hdin
  | rdStatus => cases h; exact absurd rfl hdin
  | issue c => exact absurd (issue_samePorts h).din hdin

/-- Settles O18: an idle step changes nothing, and of the operations only WR_DIN and RESET write DIN (`perform_din`). -/
theorem dinIsWrittenOnlyByTheHost : Obligations.DinIsWrittenOnlyByTheHost := by
  intro s t h hdin
  rcases step_cases s with ⟨-, hidle⟩ | ⟨op, rest, hpending, hop⟩
  · cases hidle.symm.trans h
    exact absurd rfl hdin
  · rcases perform_din (hop.symm.trans h) hdin with rfl | ⟨rfl, hzero⟩
    · exact .inl ⟨_, rest, hpending, rfl⟩
    · exact .inr ⟨rest, hpending, hzero⟩

theorem perform_cfg {op : HostOp} {s t : State} (h : perform op s = .next t) : t.cfg = s.cfg := by
  cases op with
  | wrBuf a b =>
    obtain ⟨-, rfl⟩ := portWrBuf_next h
    rfl
  | rdBuf a =>
    obtain ⟨n, r, rfl⟩ := portRdBuf_state h
    rfl
  | issue c => exact (issue_samePorts h).cfg
  | reset => cases h; rfl
  | wrDin w => cases h; rfl
  | rdV i => cases h; rfl
  | rdStatus => cases h; rfl

/-- Settles O22: no operation writes the parameters (`perform_cfg`), RESET included. -/
theorem parametersNeverChange : Obligations.ParametersNeverChange := by
  intro s t h
  rcases step_cases s with ⟨-, hidle⟩ | ⟨op, rest, -, hop⟩
  · cases hidle.symm.trans h
    rfl
  · exact perform_cfg (s := s.accept rest) (hop.symm.trans h)

end Sys2Proof.Machine
end

section
/-! The invariant of the block: the range of the registers is `step_valuesInRange`; here are STATUS (10_state.md R29 to
R33) and the canonical form of WBUF (20_memory.md R50), command by command and port by port. -/

namespace Sys2Proof.Machine

/-! ### STATUS stays legal -/

theorem Status.legal.withErr {x : Status} {e : ErrCode} (h : x.legal) (he : e = .ok ∨ e = .notExact) :
    Status.legal { x with err := e } := by
  obtain ⟨-, hlen, hreq, -, -, hneeded, hcause⟩ := h
  rcases he with rfl | rfl
  · exact ⟨nofun, hlen, hreq, nofun, nofun, hneeded, hcause⟩
  · exact ⟨nofun, hlen, hreq, nofun, nofun, hneeded, hcause⟩

theorem Status.legal.withFault {x : Status} {c : Cause} (h : x.legal) (hc : c ≠ .none) :
    Status.legal { x with fault := true, fcause := c } := by
  obtain ⟨herr, hlen, hreq, hshort, hempty, hneeded, -⟩ := h
  exact ⟨herr, hlen, hreq, hshort, hempty, hneeded, iff_of_true rfl hc⟩

theorem CodecEnds.legal {s t : State} (h : CodecEnds s t) (hs : s.status.legal) : t.status.legal := by
  obtain ⟨e, l, r, hresult, hstatus⟩ := h.status
  have hcause : t.status.fault = true ↔ t.status.fcause ≠ .none := by
    obtain ⟨-, -, -, -, -, -, hcause⟩ := hs
    rw [hstatus.fault, hstatus.fcause]
    exact hcause
  rcases hstatus.fields hresult with ⟨herr, hlen, hreq⟩ | ⟨herr, hlen, hreq⟩ | ⟨herr, hlen, hreq⟩
  · exact ⟨by simp [herr], .tail _ hlen, by simp [hreq], by simp [herr], by simp [herr], by simp [hreq], hcause⟩
  · exact ⟨by simp [herr], by simp [hlen], by simp [hreq], by simp [herr], by simp [hlen, hreq], by simp [hreq], hcause⟩
  · have hneeded : t.status.req ≠ 0#4 := fun hzero => by simp [hzero] at hreq
    exact ⟨by simp [herr], by simp [hlen], .tail _ hreq, fun _ => ⟨hlen, hneeded⟩, by simp [herr], fun _ => hlen,
      hcause⟩

theorem CommandEnding.legal {i : Instr} {s t : State} (h : CommandEnding i s t) (hs : s.status.legal) :
    t.status.legal := by
  cases h with
  | faults _ hc h => exact h.status ▸ hs.withFault hc
  | completes _ _ _ _ _ h => exact h.status ▸ hs.withErr (.inl rfl)
  | reports _ h => exact h.status ▸ hs.withErr (.inr rfl)
  | moves _ _ _ _ _ h => exact h.status ▸ hs
  | codec _ h => exact h.legal hs

theorem issue_legal {c : Command} {s t : State} (h : issue c s = .next t) (hs : s.status.legal) :
    t.status.legal := by
  rcases issue_cases h with ⟨-, rfl⟩ | ⟨-, -, hf⟩ | ⟨-, i, -, hi⟩
  · exact hs
  · exact hf.status ▸ hs.withFault (by decide)
  · exact (exec_ending hi).legal hs

theorem reset_legal : State.reset.status.legal := by decide

theorem perform_legal {op : HostOp} {s t : State} (h : perform op s = .next t) (hs : s.status.legal) :
    t.status.legal := by
  by_cases hreset : op = .reset
  · subst hreset
    cases h
    exact reset_legal
  by_cases hissue : ∃ c, op = .issue c
  · obtain ⟨c, rfl⟩ := hissue
    exact issue_legal h hs
  obtain ⟨-, hstatus⟩ := perform_keeps_regs_status hreset (not_exists.mp hissue) h
  exact hstatus ▸ hs

/-! ### WBUF stays in canonical form -/

/-- WBUF in canonical form and within its bounds, the part of `BlockInv` that speaks of it. -/
def WbufWf (s : State) : Prop := Memory.wf s.cfg.wbufSize s.wbuf

theorem WbufWf.of_same {s t : State} (h : WbufWf s) (hcfg : t.cfg = s.cfg) (hwbuf : t.wbuf = s.wbuf) : WbufWf t := by
  rw [WbufWf, hcfg, hwbuf]
  exact h

/-- ENC that writes stays within the region it has checked. -/
theorem execEnc_wbufWf {rv ro rc : Reg} {s t : State} (h : execEnc rv ro rc s = .next t) (hs : WbufWf s) :
    WbufWf t := by
  obtain ⟨hports, -⟩ := execEnc_frame h
  rcases execEnc_cases h with ⟨-, hf⟩ | ⟨-, -, hr⟩ | ⟨hregion, hfits, rfl⟩
  · exact hs.of_same hports.cfg hf.bytes.cells
  · exact hs.of_same hports.cfg hr.bytes.cells
  · have hwithin : s.val ro + (wireEncode (s.val rv)).length ≤ s.cfg.wbufSize := by
      rw [wireEncode_length]
      omega
    rw [WbufWf, hports.cfg]
    exact writeBytes_wf _ hwithin hs

theorem exec_wbufWf {i : Instr} {s t : State} (h : exec i s = .next t) (hs : WbufWf s) : WbufWf t := by
  by_cases hg : statusGroup i = .codec
  · rcases dec_or_enc_of_codec hg with ⟨rd, ro, ra, rfl⟩ | ⟨rv, ro, rc, rfl⟩
    · obtain ⟨hports, -, hwbuf⟩ := execDec_frame h
      exact hs.of_same hports.cfg hwbuf
    · exact execEnc_wbufWf h hs
  · have hkeeps := (exec_ending h).changesOnlyDestination hg
    exact hs.of_same hkeeps.ports.cfg hkeeps.bytes.cells

theorem issue_wbufWf {c : Command} {s t : State} (h : issue c s = .next t) (hs : WbufWf s) : WbufWf t := by
  rcases issue_cases h with ⟨-, rfl⟩ | ⟨-, -, hf⟩ | ⟨-, i, -, hi⟩
  · exact hs
  · exact hs.of_same hf.ports.cfg hf.bytes.cells
  · exact exec_wbufWf hi hs

theorem perform_wbufWf {op : HostOp} {s t : State} (h : perform op s = .next t) (hs : WbufWf s) : WbufWf t := by
  cases op with
  | reset => cases h; exact ⟨.nil, nofun⟩
  | wrBuf a b =>
    obtain ⟨ha, rfl⟩ := portWrBuf_next h
    exact writeByte_wf b ha hs
  | rdBuf a =>
    obtain ⟨n, r, rfl⟩ := portRdBuf_state h
    exact hs
  | issue c => exact issue_wbufWf h hs
  | wrDin w => cases h; exact hs
  | rdV i => cases h; exact hs
  | rdStatus => cases h; exact hs

/-! ### The statements -/

/-- Settles O19: the three parts are kept apart, the registers by `step_valuesInRange`, STATUS by `perform_legal` and
WBUF by `perform_wbufWf`. -/
theorem stepKeepsTheInvariant : Obligations.StepKeepsTheInvariant := by
  rintro s t ⟨hvalues, hlegal, hwf⟩ h
  have hvalues' := step_valuesInRange hvalues h
  rcases step_cases s with ⟨-, hidle⟩ | ⟨op, rest, -, hop⟩
  · cases hidle.symm.trans h
    exact ⟨hvalues, hlegal, hwf⟩
  · have hperform := hop.symm.trans h
    exact ⟨hvalues', perform_legal hperform hlegal, perform_wbufWf hperform hwf⟩

/-- Settles O20: the three parts at the reset state. -/
theorem resetStateHasTheInvariant : Obligations.ResetStateHasTheInvariant :=
  ⟨reset_valuesInRange, reset_legal, reset_wbuf_wf⟩

/-- Settles O12: RESET leaves the reset state as it is, so its values are those after a RESET; the parameters are the
defaults. -/
theorem initialStateHasTheResetValues : Obligations.InitialStateHasTheResetValues :=
  ⟨applyReset_reg_eq_zero State.reset, rfl, applyReset_status_word State.reset, rfl,
    applyReset_byteAt_eq_none State.reset, rfl, rfl, rfl⟩

end Sys2Proof.Machine
end

section
/-! DEC of any encoding of a value (42_codec.md R143), of a region that nothing has written (20_memory.md R56, R57), and
run twice (R58). -/

namespace Sys2Proof.Machine

/-! ### Every length -/

/-- A value of `l` bytes with its two length bits taken off is at most MAX. -/
theorem le_maxValue_of_usableBits {l v : Nat} (hl : l ≤ 8) (hv : v < 2 ^ (8 * l - 2)) : v ≤ maxValue :=
  lt_two_pow_62_iff.mp (hv.trans_le (Nat.pow_le_pow_right Nat.two_pos (by omega)))

/-- Settles O41: DEC of an encoding of the value, of whatever length, leaves the value and the length
(`execDec_of_holds`). -/
theorem decAcceptsEveryLength : Obligations.DecAcceptsEveryLength := by
  rintro rd ro ra s v ⟨l, p⟩ hlp hv hr ha hs
  obtain ⟨-, hl, -⟩ := wireLengths_row _ hlp
  have hl16 : l < 16 := hl.trans_lt (by decide)
  exact ⟨_, execDec_of_holds hlp hv hr ha hs, setReg_val_self (le_maxValue_of_usableBits hl hv),
    setReg_sameRegsBut s rd _, (setCodec_codecStatus _ .ok hl16 (by decide)).of_status rfl,
    ⟨fun _ => rfl, rfl, rfl⟩, ⟨rfl, rfl, rfl, rfl⟩⟩

/-! ### Unwritten bytes -/

/-- A read draws at most one byte. -/
theorem readByte_draws_bounds (s : State) (a : Nat) :
    s.draws ≤ (s.readByte a).2.draws ∧ (s.readByte a).2.draws ≤ s.draws + 1 := by
  rcases readByte_cases s a with ⟨b, -, h⟩ | ⟨-, h⟩ <;> rw [h]
  · exact ⟨Nat.le_refl _, Nat.le_succ _⟩
  · exact ⟨Nat.le_succ _, Nat.le_refl _⟩

/-- `MemRead` draws at most a byte for each it reads. -/
theorem readBytes_draws_bounds (s : State) (a n : Nat) :
    s.draws ≤ (s.readBytes a n).2.draws ∧ (s.readBytes a n).2.draws ≤ s.draws + n := by
  induction n generalizing s a with
  | zero => exact ⟨Nat.le_refl _, Nat.le_refl _⟩
  | succ n ih =>
    obtain ⟨hlow, hhigh⟩ := readByte_draws_bounds s a
    obtain ⟨hlow', hhigh'⟩ := ih (s.readByte a).2 (a + 1)
    simp only [State.readBytes]
    omega

/-- An unwritten first byte is drawn, and DEC goes on with it. -/
theorem execDec_of_unwritten {rd ro ra : Reg} {s : State} (hr : s.val ro + s.val ra ≤ s.cfg.wbufSize)
    (ha : 1 ≤ s.val ra) (hb : s.byteAt (s.val ro) = none) :
    execDec rd ro ra s
      = decFrom rd (s.val ro) (s.val ra) (Config.freeByte s.draws) { s with draws := s.draws + 1 } := by
  rw [execDec, regionCheck_of_le _ hr, if_neg (Nat.pos_iff_ne_zero.mp ha), readByte_unwritten hb]
  rfl

/-- What DEC leaves once its first byte `b0` has been drawn: WBUF as before, at most a draw for each byte of the length
declared, and a report or a value of that length. -/
structure DrawnDecodes (rd : Reg) (avail : Nat) (b0 : Byte) (s t : State) : Prop where
  bytes : ∀ a, t.byteAt a = s.byteAt a
  ports : SamePorts s t
  regs : SameRegsBut rd s t
  drawn : s.draws < t.draws
  bounded : t.draws ≤ s.draws + wireLen b0
  short : avail < wireLen b0 →
    SameRegs s t ∧ t.draws = s.draws + 1 ∧ CodecStatus .bufferTooSmall 0 (wireLen b0) s t
  fits : wireLen b0 ≤ avail → CodecStatus .ok (wireLen b0) 0 s t ∧ t.val rd < 2 ^ (8 * wireLen b0 - 2)

theorem decFrom_of_short_drawn {rd : Reg} {off avail : Nat} {b0 : Byte} {s : State} (h : avail < wireLen b0) :
    ∃ t, decFrom rd off avail b0 { s with draws := s.draws + 1 } = .next t ∧ DrawnDecodes rd avail b0 s t := by
  obtain ⟨t, ht, hregs, hstatus, hbytes, hports⟩ :=
    decFrom_of_short (rd := rd) (off := off) (s := { s with draws := s.draws + 1 }) h
  have hdraws : t.draws = s.draws + 1 := hbytes.draws
  exact ⟨t, ht,
    { bytes := hbytes.bytes
      ports := ⟨hports.din, hports.cfg, hports.pending, hports.resp⟩
      regs := fun r _ => hregs r
      drawn := by omega
      bounded := by have := one_le_wireLen b0; omega
      short := fun _ => ⟨hregs, hdraws, hstatus.of_status rfl⟩
      fits := fun hfits => absurd h hfits.not_gt }⟩

theorem decFrom_of_fits_drawn {rd : Reg} {off avail : Nat} {b0 : Byte} {s : State} (h : wireLen b0 ≤ avail) :
    ∃ t, decFrom rd off avail b0 { s with draws := s.draws + 1 } = .next t ∧ DrawnDecodes rd avail b0 s t := by
  have hpos := one_le_wireLen b0
  obtain ⟨bs, d, hread, hlen, -, -⟩ :=
    readBytes_result { s with draws := s.draws + 1 } (off + 1) (wireLen b0 - 1)
  obtain ⟨hlow, hhigh⟩ : s.draws + 1 ≤ d ∧ d ≤ s.draws + 1 + (wireLen b0 - 1) := by
    have hbounds := readBytes_draws_bounds { s with draws := s.draws + 1 } (off + 1) (wireLen b0 - 1)
    rwa [hread] at hbounds
  obtain ⟨hdec, hval⟩ := decFrom_of_fits (rd := rd) h (by omega : bs.length + 1 = wireLen b0) (hlen ▸ hread)
  have hlt : be (b0 :: bs) % 2 ^ (8 * wireLen b0 - 2) < 2 ^ (8 * wireLen b0 - 2) := Nat.mod_lt _ (Nat.two_pow_pos _)
  have hlen16 : wireLen b0 < 16 := (wireLen_le b0).trans_lt (by decide)
  exact ⟨_, hdec,
    { bytes := fun _ => rfl
      ports := ⟨rfl, rfl, rfl, rfl⟩
      regs := setReg_sameRegsBut { s with draws := d } rd _
      drawn := hlow
      bounded := show d ≤ s.draws + wireLen b0 by omega
      short := fun hshort => absurd h hshort.not_ge
      fits := fun _ => ⟨(setCodec_codecStatus _ .ok hlen16 (by decide)).of_status rfl,
        (setReg_val_self hval).trans_lt hlt⟩ }⟩

/-- Settles O42: the first byte is drawn (`execDec_of_unwritten`), and the length it declares decides between the report
and the value. -/
theorem decOfUnwrittenBytesDraws : Obligations.DecOfUnwrittenBytesDraws := by
  intro rd ro ra s hr ha hb
  have hends : ∃ t, execDec rd ro ra s = .next t
      ∧ DrawnDecodes rd (s.val ra) (Config.freeByte s.draws) s t := by
    rw [execDec_of_unwritten hr ha hb]
    rcases Nat.lt_or_ge (s.val ra) (wireLen (Config.freeByte s.draws)) with hshort | hfits
    · exact decFrom_of_short_drawn hshort
    · exact decFrom_of_fits_drawn hfits
  obtain ⟨t, ht, hbytes, hports, hregs, hdrawn, hbounded, hshort, hfits⟩ := hends
  simp only [← wireLen_eq]
  exact ⟨t, ht, hbytes, hports, hregs, hdrawn, hbounded, hshort, hfits⟩

/-! ### DEC run again -/

/-- What DEC takes from a state whose region is written: its two operands, the size and the bytes of WBUF. -/
structure SameDecInputs (ro ra : Reg) (s w : State) : Prop where
  offset : w.val ro = s.val ro
  avail : w.val ra = s.val ra
  cfg : w.cfg = s.cfg
  bytes : ∀ a, w.byteAt a = s.byteAt a

/-- On every state with the inputs of `s`, DEC makes the change `f`, which keeps those inputs and made twice is made
once. -/
structure DecMakes (rd ro ra : Reg) (s : State) (f : State → State) : Prop where
  runs : ∀ w, SameDecInputs ro ra s w → execDec rd ro ra w = .next (f w)
  keeps : SameDecInputs ro ra s (f s)
  idem : f (f s) = f s

theorem DecMakes.again {rd ro ra : Reg} {s t : State} {f : State → State} (h : DecMakes rd ro ra s f)
    (hs : execDec rd ro ra s = .next t) : execDec rd ro ra t = .next t := by
  obtain rfl : f s = t := Host.Outcome.next.inj ((h.runs s ⟨rfl, rfl, rfl, fun _ => rfl⟩).symm.trans hs)
  rw [h.runs _ h.keeps, h.idem]

theorem setReg_setCodec_twice (s : State) (rd : Reg) (w : Word) (e : ErrCode) (l r : Nat) :
    ((((s.setReg rd w).setCodec e l r).setReg rd w).setCodec e l r) = (s.setReg rd w).setCodec e l r := by
  simp [State.setReg, State.setCodec, Vector.set_set]

theorem decMakes_of_outside {rd ro ra : Reg} {s : State} (h : s.cfg.wbufSize < s.val ro + s.val ra) :
    DecMakes rd ro ra s fun w => { w with status := { w.status with fault := true, fcause := .region } } where
  runs w hw := by
    rw [execDec, regionCheck_of_lt _ (by rwa [hw.cfg, hw.offset, hw.avail])]
    rfl
  keeps := ⟨rfl, rfl, rfl, fun _ => rfl⟩
  idem := rfl

theorem decMakes_of_empty {rd ro ra : Reg} {s : State} (hr : s.val ro + s.val ra ≤ s.cfg.wbufSize)
    (h : s.val ra = 0) : DecMakes rd ro ra s fun w => w.setCodec .empty 0 0 where
  runs w hw := by
    rw [execDec, regionCheck_of_le _ (by rwa [hw.cfg, hw.offset, hw.avail]), if_pos (hw.avail.trans h)]
    rfl
  keeps := ⟨rfl, rfl, rfl, fun _ => rfl⟩
  idem := rfl

theorem execDec_of_sameInputs {rd ro ra : Reg} {s w : State} {b0 : Byte} (hw : SameDecInputs ro ra s w)
    (hr : s.val ro + s.val ra ≤ s.cfg.wbufSize) (ha : 1 ≤ s.val ra) (hb : s.byteAt (s.val ro) = some b0) :
    execDec rd ro ra w = decFrom rd (s.val ro) (s.val ra) b0 w := by
  rw [execDec_of_written (b0 := b0), hw.offset, hw.avail]
  · rwa [hw.cfg, hw.offset, hw.avail]
  · rwa [hw.avail]
  · rwa [hw.offset, hw.bytes]

theorem decMakes_of_short {rd ro ra : Reg} {s : State} {b0 : Byte} (hr : s.val ro + s.val ra ≤ s.cfg.wbufSize)
    (ha : 1 ≤ s.val ra) (hb : s.byteAt (s.val ro) = some b0) (h : s.val ra < wireLen b0) :
    DecMakes rd ro ra s fun w => w.setCodec .bufferTooSmall 0 (wireLen b0) where
  runs w hw := by
    rw [execDec_of_sameInputs hw hr ha hb, decFrom, if_pos h]
    rfl
  keeps := ⟨rfl, rfl, rfl, fun _ => rfl⟩
  idem := rfl

theorem decMakes_of_fits {rd ro ra : Reg} {s : State} {b0 : Byte} {bs : List Byte} (hro : rd ≠ ro) (hra : rd ≠ ra)
    (hr : s.val ro + s.val ra ≤ s.cfg.wbufSize) (hb : s.byteAt (s.val ro) = some b0) (h : wireLen b0 ≤ s.val ra)
    (hlen : bs.length + 1 = wireLen b0) (hs : Holds s (s.val ro + 1) bs) :
    DecMakes rd ro ra s fun w =>
      (w.setReg rd (BitVec.ofNat 64 (be (b0 :: bs) % 2 ^ (8 * wireLen b0 - 2)))).setCodec .ok (wireLen b0) 0 where
  runs w hw := by
    rw [execDec_of_sameInputs hw hr ((one_le_wireLen b0).trans h) hb]
    exact (decFrom_of_fits (d := w.draws) h hlen (readBytes_written (hs.of_byteAt hw.bytes))).1
  keeps :=
    { offset := congrArg BitVec.toNat (State.setReg_reg_of_ne s rd ro _ hro.symm)
      avail := congrArg BitVec.toNat (State.setReg_reg_of_ne s rd ra _ hra.symm)
      cfg := rfl
      bytes := fun _ => rfl }
  idem := setReg_setCodec_twice s rd _ .ok _ 0

/-- Bytes that are all written are held. -/
theorem exists_holds_of_written {s : State} {off n : Nat} (h : ∀ k < n, s.byteAt (off + k) ≠ none) :
    ∃ bs, bs.length = n ∧ Holds s off bs := by
  refine ⟨(List.range n).map fun k => (s.byteAt (off + k)).getD 0, by simp, fun i hi => ?_⟩
  obtain ⟨b, hb⟩ := Option.ne_none_iff_exists'.mp (h i (by simpa using hi))
  simp [hb]

/-- DEC of a written region has one of the four changes above. -/
theorem exists_decMakes {rd ro ra : Reg} {s : State} (hro : rd ≠ ro) (hra : rd ≠ ra)
    (hwritten : ∀ a, s.val ro ≤ a → a < s.val ro + s.val ra → s.byteAt a ≠ none) :
    ∃ f, DecMakes rd ro ra s f := by
  rcases Nat.lt_or_ge s.cfg.wbufSize (s.val ro + s.val ra) with houtside | hr
  · exact ⟨_, decMakes_of_outside houtside⟩
  rcases Nat.eq_zero_or_pos (s.val ra) with hempty | ha
  · exact ⟨_, decMakes_of_empty hr hempty⟩
  obtain ⟨b0, hb⟩ := Option.ne_none_iff_exists'.mp (hwritten (s.val ro) (Nat.le_refl _) (by omega))
  rcases Nat.lt_or_ge (s.val ra) (wireLen b0) with hshort | hfits
  · exact ⟨_, decMakes_of_short hr ha hb hshort⟩
  obtain ⟨bs, hlen, hs⟩ := exists_holds_of_written (s := s) (off := s.val ro + 1) (n := wireLen b0 - 1)
    fun k hk => hwritten _ (by omega) (by omega)
  have hcount : bs.length + 1 = wireLen b0 := by rw [hlen, Nat.sub_add_cancel (one_le_wireLen b0)]
  exact ⟨_, decMakes_of_fits hro hra hr hb hfits hcount hs⟩

/-- Settles O43: the change DEC makes depends on what it leaves as it was (`exists_decMakes`), and made again it changes
nothing more. -/
theorem decIsIdempotent : Obligations.DecIsIdempotent := by
  intro rd ro ra s t hro hra hwritten h
  obtain ⟨f, hf⟩ := exists_decMakes hro hra hwritten
  exact hf.again h

end Sys2Proof.Machine
end

section
/-! The laws of the arithmetic commands (43_alu_arith.md R166): a result that completes is the one of 64-bit words, none
of the five operations leaving [0, 2^64) on its way. -/

namespace Sys2Proof.Machine

/-- `Commit` that raised no fault has put its value in the register. -/
theorem commitOk_reg_of_not_faulted {rd : Reg} {v : Nat} {s t : State} (h : commitOk rd v s = .next t)
    (ht : t.status.fault = false) : t.reg rd = BitVec.ofNat 64 v := by
  rcases commitOk_cases h with ⟨-, hf⟩ | ⟨-, hc⟩
  · simp [hf.status] at ht
  · rw [← hc.dest, State.val, BitVec.ofNat_toNat, BitVec.setWidth_eq]

theorem commitOk_reg_of_word {rd : Reg} {w : Word} {s t : State} (h : commitOk rd w.toNat s = .next t)
    (ht : t.status.fault = false) : t.reg rd = w := by
  rw [commitOk_reg_of_not_faulted h ht, BitVec.ofNat_toNat, BitVec.setWidth_eq]

/-- A fault that was raised stands in STATUS. -/
theorem raiseFault_ne_of_not_faulted {c : Cause} {s t : State} (ht : t.status.fault = false) :
    raiseFault c s ≠ .next t := fun h => by
  simp [(raiseFault_faults h).status] at ht

theorem exec_add_comm (rd rs1 rs2 : Reg) (s : State) : exec (.add rd rs1 rs2) s = exec (.add rd rs2 rs1) s := by
  rw [exec, exec, execAdd, execAdd, Nat.add_comm]

theorem exec_mul_comm (rd rs1 rs2 : Reg) (s : State) : exec (.mul rd rs1 rs2) s = exec (.mul rd rs2 rs1) s := by
  rw [exec, exec, execMul, execMul, Nat.mul_comm]

theorem execAdd_reg {rd rs1 rs2 : Reg} {s t : State} (h : execAdd rd rs1 rs2 s = .next t)
    (ht : t.status.fault = false) : t.reg rd = s.reg rs1 + s.reg rs2 := by
  rw [commitOk_reg_of_not_faulted h ht]
  simp [State.val, BitVec.ofNat_add]

theorem execSub_reg {rd rs1 rs2 : Reg} {s t : State} (h : execSub rd rs1 rs2 s = .next t)
    (ht : t.status.fault = false) : t.reg rd = s.reg rs1 - s.reg rs2 := by
  rcases Nat.lt_or_ge (s.val rs1) (s.val rs2) with hlt | hle
  · rw [execSub_of_lt hlt] at h
    exact absurd h (raiseFault_ne_of_not_faulted ht)
  · have hdiff : s.val rs1 - s.val rs2 = (s.reg rs1 - s.reg rs2).toNat :=
      (BitVec.toNat_sub_of_le (BitVec.le_def.mpr hle)).symm
    rw [execSub_of_le hle, hdiff] at h
    exact commitOk_reg_of_word h ht

theorem execMul_reg {rd rs1 rs2 : Reg} {s t : State} (h : execMul rd rs1 rs2 s = .next t)
    (ht : t.status.fault = false) : t.reg rd = s.reg rs1 * s.reg rs2 := by
  rcases Nat.lt_or_ge (s.val rs1 * s.val rs2) (2 ^ 64) with hlt | hge
  · rw [execMul_of_lt hlt] at h
    rw [commitOk_reg_of_not_faulted h ht]
    simp [State.val, BitVec.ofNat_mul]
  · rw [execMul_of_le hge] at h
    exact absurd h (raiseFault_ne_of_not_faulted ht)

theorem execDiv_reg {rd rs1 rs2 : Reg} {s t : State} (h : execDiv rd rs1 rs2 s = .next t)
    (ht : t.status.fault = false) : t.reg rd = s.reg rs1 / s.reg rs2 := by
  by_cases hzero : s.val rs2 = 0
  · rw [execDiv_of_zero hzero] at h
    exact absurd h (raiseFault_ne_of_not_faulted ht)
  · rw [execDiv_of_ne_zero hzero, State.val, State.val, ← BitVec.toNat_udiv] at h
    exact commitOk_reg_of_word h ht

theorem execRem_reg {rd rs1 rs2 : Reg} {s t : State} (h : execRem rd rs1 rs2 s = .next t)
    (ht : t.status.fault = false) : t.reg rd = s.reg rs1 % s.reg rs2 := by
  by_cases hzero : s.val rs2 = 0
  · rw [execRem_of_zero hzero] at h
    exact absurd h (raiseFault_ne_of_not_faulted ht)
  · rw [execRem_of_ne_zero hzero, State.val, State.val, ← BitVec.toNat_umod] at h
    exact commitOk_reg_of_word h ht

/-- Settles O52: the operands of ADD and MUL stand in a commutative operation, and each result is the word's. -/
theorem arithmeticLaws : Obligations.ArithmeticLaws := fun rd rs1 rs2 s =>
  ⟨exec_add_comm rd rs1 rs2 s, exec_mul_comm rd rs1 rs2 s, fun _ _ _ ht =>
    ⟨fun h => execAdd_reg h ht, fun h => execSub_reg h ht, fun h => execMul_reg h ht, fun h => execDiv_reg h ht,
      fun h => execRem_reg h ht⟩⟩

end Sys2Proof.Machine
end

section
/-! The assembler's checks of operands and its pseudo-instructions (30_encoding.md R81, R83). -/

namespace Sys2Proof.Machine

/-! ### Operands -/

theorem assembleForm_of_count {f : Form} {os : List AsmOperand} (h : os.length ≠ formArity f) :
    assembleForm f os = .error .operandCount := if_pos h

/-- An operand out of its range is refused, if not for its place then for itself. -/
theorem assembleForm_of_outOfRange {f : Form} {os : List AsmOperand} {o : AsmOperand} (ho : o ∈ os)
    (h : o.wellFormed = false) : ∃ e, assembleForm f os = .error e := by
  by_cases hcount : os.length = formArity f
  · have hall : os.all AsmOperand.wellFormed = false := List.all_eq_false.mpr ⟨o, ho, by simp [h]⟩
    exact ⟨.outOfRange, by rw [assembleForm, if_neg (not_not.mpr hcount), if_pos hall]⟩
  · exact ⟨_, assembleForm_of_count hcount⟩

/-- Operands in their number and ranges give what the form makes of them. -/
theorem assembleForm_of_wellFormed {f : Form} {os : List AsmOperand} {i : Instr} (hcount : os.length = formArity f)
    (hall : os.all AsmOperand.wellFormed = true) (hi : applyForm f os = some i) : assembleForm f os = .ok i := by
  simp [assembleForm, hcount, hall, hi]

theorem wellFormed_reg {n : Nat} (h : n ≤ 7) : (AsmOperand.reg n).wellFormed = true :=
  decide_eq_true (Nat.lt_succ_of_le h)

theorem wellFormed_imm {n : Nat} (h : n ≤ 65535) : (AsmOperand.imm n).wellFormed = true :=
  decide_eq_true h

/-- A register number up to 7 is the number of its field. -/
theorem ofNat_reg_toNat {n : Nat} (h : n ≤ 7) : (BitVec.ofNat 3 n : Reg).toNat = n :=
  Nat.mod_eq_of_lt (Nat.lt_succ_of_le h)

theorem ofNat_imm_toNat {n : Nat} (h : n ≤ 65535) : (BitVec.ofNat 16 n).toNat = n :=
  Nat.mod_eq_of_lt (Nat.lt_succ_of_le h)

/-- Settles O59: the count is checked first, then the ranges (`assembleForm_of_outOfRange`), and what passes both is
built from the numbers as they stand. -/
theorem assemblerRefusesWhatItMust : Obligations.AssemblerRefusesWhatItMust := by
  refine ⟨fun f os h => ⟨_, assembleForm_of_count h⟩, fun f os n ho hn => ?_, fun f os n ho hn => ?_,
    fun d a b n hd ha hb hn => ?_⟩
  · exact assembleForm_of_outOfRange ho (decide_eq_false (by omega))
  · exact assembleForm_of_outOfRange ho (decide_eq_false (by omega))
  · have hd' := wellFormed_reg hd
    have ha' := wellFormed_reg ha
    have hb' := wellFormed_reg hb
    have hn' := wellFormed_imm hn
    exact ⟨BitVec.ofNat 3 d, BitVec.ofNat 3 a, BitVec.ofNat 3 b, ofNat_reg_toNat hd, ofNat_reg_toNat ha,
      ofNat_reg_toNat hb,
      fun mk => assembleForm_of_wellFormed rfl (by simp [hd', ha', hb']) rfl,
      fun mk => assembleForm_of_wellFormed rfl (by simp [hd', ha']) rfl,
      fun mk => assembleForm_of_wellFormed rfl (by simp [hd']) rfl,
      BitVec.ofNat 16 n, ofNat_imm_toNat hn,
      fun mk => assembleForm_of_wellFormed rfl (by simp [hd', hn']) rfl⟩

/-! ### Pseudo-instructions -/

/-- OR of a register with itself copies it. -/
theorem exec_or_self_completes {d a : Reg} {s : State} (h : s.val a ≤ maxValue) :
    ∃ t, exec (.or d a a) s = .next t ∧ Completes d (s.val a) s t := by
  rw [exec, execOr, BitVec.or_self]
  exact commitOk_completes h

/-- XOR with MAX is the 62-bit complement: MAX has every bit below bit 62 set and no other. -/
theorem xor_maxValue {a : Nat} (h : a ≤ maxValue) : a ^^^ maxValue = maxValue - a := by
  have hlt : a < 2 ^ 62 := lt_two_pow_62_iff.mpr h
  have hmax : maxValue = 2 ^ 62 - 1 := rfl
  refine Nat.eq_of_testBit_eq fun i => ?_
  have hsub : maxValue - a = 2 ^ 62 - (a + 1) := by omega
  rw [hsub, Nat.testBit_two_pow_sub_succ hlt, Nat.testBit_xor, hmax, Nat.testBit_two_pow_sub_one]
  by_cases hi : i < 62
  · simp [hi]
  · simp [hi, Nat.testBit_eq_false_of_lt (lt_two_pow_of_le_maxValue h (Nat.le_of_not_lt hi))]

theorem exec_xor_max_completes {d a m : Reg} {s : State} (h : s.val a ≤ maxValue) (hm : s.val m = maxValue) :
    ∃ t, exec (.xor d a m) s = .next t ∧ Completes d (maxValue - s.val a) s t := by
  have hv : (s.reg a ^^^ s.reg m).toNat = maxValue - s.val a := by
    rw [BitVec.toNat_xor, ← xor_maxValue h, ← hm, State.val, State.val]
  rw [exec, execXor, hv]
  exact commitOk_completes (Nat.sub_le _ _)

/-- Settles O60: the table's expansions are looked up, and each command does as its pseudo-instruction is named. -/
theorem pseudoInstructionsDoAsNamed : Obligations.PseudoInstructionsDoAsNamed :=
  ⟨rfl, rfl, rfl, rfl, fun d _ _ s ha =>
    ⟨exec_or_self_completes ha, (ldiLoadsItsImmediate d 0 s).2, fun hm => exec_xor_max_completes ha hm⟩⟩

end Sys2Proof.Machine
end
